-- ==== Sys2Proof/Word.lean ====
section
/-! DEFINITION. The word types of the engine: bytes, 16-bit words, the 12-bit constant of an instruction and the
register number (spec/00_scope.md rules R6, R9; spec/30_encoding.md rules R71, R73). Every value is unsigned. -/

namespace Sys2Proof

/-- A register, a timer or a byte of memory: 8 bits (R6 `REG_WIDTH`, R50). -/
abbrev Byte := BitVec 8

/-- An instruction word, the program counter, the index register or a return address: 16 bits (R6, R70). -/
abbrev Word := BitVec 16

/-- The constant NNN of an instruction: 12 bits (R71). -/
abbrev Addr12 := BitVec 12

/-- The number of a general register V0..VF (R22), and of a key (R6 `NKEYS`). -/
abbrev Reg := Fin 16

end Sys2Proof
end

