-- ==== Sys2Proof/Syntax.lean ====
section
/-! DEFINITION. The 35 instructions of spec/opcode_table.json, one constructor per row in the table's order
(spec/30_encoding.md rule R75). `x` and `y` are register numbers, `nn` an 8-bit and `nnn` a 12-bit constant, `n` the row
count of a sprite (R71, R73). -/

namespace Sys2Proof

/-- An instruction of the engine (R75). An Unknown word (R76) is no instruction: the decoder rejects it by name. -/
inductive Instr where
  /-- 00E0 CLS (R191). -/
  | cls
  /-- 00EE RET (R112). -/
  | ret
  /-- 0NNN SYS, every class-0 word but 00E0 and 00EE (R111). -/
  | sys (nnn : Addr12)
  /-- 1NNN JP (R113). -/
  | jp (nnn : Addr12)
  /-- 2NNN CALL (R114). -/
  | call (nnn : Addr12)
  /-- 3XNN SE (R115). -/
  | seImm (x : Reg) (nn : Byte)
  /-- 4XNN SNE (R116). -/
  | sneImm (x : Reg) (nn : Byte)
  /-- 5XY0 SE (R117). -/
  | seReg (x y : Reg)
  /-- 6XNN LD (R141). -/
  | ldImm (x : Reg) (nn : Byte)
  /-- 7XNN ADD (R142). -/
  | addImm (x : Reg) (nn : Byte)
  /-- 8XY0 LD (R143). -/
  | ldReg (x y : Reg)
  /-- 8XY1 OR (R144). -/
  | orReg (x y : Reg)
  /-- 8XY2 AND (R145). -/
  | andReg (x y : Reg)
  /-- 8XY3 XOR (R146). -/
  | xorReg (x y : Reg)
  /-- 8XY4 ADD (R147). -/
  | addReg (x y : Reg)
  /-- 8XY5 SUB (R148). -/
  | subReg (x y : Reg)
  /-- 8XY6 SHR, `y` encoded and ignored (R149). -/
  | shrReg (x y : Reg)
  /-- 8XY7 SUBN (R150). -/
  | subnReg (x y : Reg)
  /-- 8XYE SHL, `y` encoded and ignored (R151). -/
  | shlReg (x y : Reg)
  /-- 9XY0 SNE (R118). -/
  | sneReg (x y : Reg)
  /-- ANNN LD (R171). -/
  | ldI (nnn : Addr12)
  /-- BNNN JP (R119). -/
  | jpV0 (nnn : Addr12)
  /-- CXNN RND (R156). -/
  | rnd (x : Reg) (nn : Byte)
  /-- DXYN DRW (R192). -/
  | drw (x y : Reg) (n : Fin 16)
  /-- EX9E SKP (R211). -/
  | skp (x : Reg)
  /-- EXA1 SKNP (R212). -/
  | sknp (x : Reg)
  /-- FX07 LD (R213). -/
  | ldVxDT (x : Reg)
  /-- FX0A LD (R214). -/
  | ldVxK (x : Reg)
  /-- FX15 LD (R215). -/
  | ldDTVx (x : Reg)
  /-- FX18 LD (R216). -/
  | ldSTVx (x : Reg)
  /-- FX1E ADD (R172). -/
  | addI (x : Reg)
  /-- FX29 LD (R173). -/
  | ldF (x : Reg)
  /-- FX33 LD (R174). -/
  | ldB (x : Reg)
  /-- FX55 LD (R175). -/
  | ldMemVx (x : Reg)
  /-- FX65 LD (R176). -/
  | ldVxMem (x : Reg)
  deriving DecidableEq, Repr

end Sys2Proof
end

