-- ==== Sys2Proof/WellFormed.lean ====
section
/-! DEFINITION. Which terms of `Instr` are instructions of the engine (spec/30_encoding.md rules R75, R76). The types of
the fields bound every field, so one check is left: a SYS word is not one of the two words that are CLS and RET. -/

namespace Sys2Proof

/-- A class-0 constant that is a SYS word: not 0x0E0 and not 0x0EE, whose rows have the larger mask and win (R75, R111). -/
def sysConstantOk (nnn : Addr12) : Bool := nnn != 0x0E0 && nnn != 0x0EE

/-- The check, on every constructor. -/
def Instr.wellFormed : Instr → Bool
  | .sys nnn => sysConstantOk nnn
  | .cls | .ret | .jp _ | .call _ | .seImm _ _ | .sneImm _ _ | .seReg _ _ | .ldImm _ _ | .addImm _ _ => true
  | .ldReg _ _ | .orReg _ _ | .andReg _ _ | .xorReg _ _ | .addReg _ _ | .subReg _ _ | .shrReg _ _ => true
  | .subnReg _ _ | .shlReg _ _ | .sneReg _ _ | .ldI _ | .jpV0 _ | .rnd _ _ | .drw _ _ _ => true
  | .skp _ | .sknp _ | .ldVxDT _ | .ldVxK _ | .ldDTVx _ | .ldSTVx _ | .addI _ | .ldF _ => true
  | .ldB _ | .ldMemVx _ | .ldVxMem _ => true

end Sys2Proof
end

