-- ==== Sys2Proof/Decode.lean ====
section
/-! DEFINITION. Decoding, total on any bytes and rejecting by name, and the encoder (spec/30_encoding.md rules R70 to
R79; spec/20_memory.md rule R55 for the byte order). -/

namespace Sys2Proof

/-- Why bytes are no instruction: fewer than two of them, or one of the five kinds of Unknown word (R76). -/
inductive Reject where
  /-- Fewer than two bytes: an instruction is always two (R79). A fetch never meets this. -/
  | tooShort
  /-- 5XYn with n ≠ 0. -/
  | class5Selector
  /-- 8XYn with n in 8..D or F. -/
  | class8Selector
  /-- 9XYn with n ≠ 0. -/
  | class9Selector
  /-- EXnn with nn neither 9E nor A1. -/
  | classESelector
  /-- FXnn with nn none of the nine selectors. -/
  | classFSelector
  deriving DecidableEq, Repr

/-- `op`, bits 15..12 (R71). -/
def opField (w : Word) : BitVec 4 := w.extractLsb' 12 4

/-- `x`, bits 11..8 (R71). -/
def xField (w : Word) : Reg := (w.extractLsb' 8 4).toFin

/-- `y`, bits 7..4 (R71). -/
def yField (w : Word) : Reg := (w.extractLsb' 4 4).toFin

/-- `n`, bits 3..0 (R71). -/
def nField (w : Word) : Fin 16 := (w.extractLsb' 0 4).toFin

/-- `nn`, bits 7..0 (R71). -/
def nnField (w : Word) : Byte := w.extractLsb' 0 8

/-- `nnn`, bits 11..0 (R71). -/
def nnnField (w : Word) : Addr12 := w.extractLsb' 0 12

/-- Class 0 matches the whole word: CLS is 00E0, RET is 00EE, every other word is SYS (R74, R75, C18). -/
def decodeClass0 (w : Word) : Instr :=
  if w = 0x00E0 then .cls else if w = 0x00EE then .ret else .sys (nnnField w)

/-- Class 8 matches `n`: 0 to 7 and E (R74, R152). -/
def decodeClass8 (x y : Reg) (n : Nat) : Except Reject Instr :=
  match n with
  | 0x0 => .ok (.ldReg x y)
  | 0x1 => .ok (.orReg x y)
  | 0x2 => .ok (.andReg x y)
  | 0x3 => .ok (.xorReg x y)
  | 0x4 => .ok (.addReg x y)
  | 0x5 => .ok (.subReg x y)
  | 0x6 => .ok (.shrReg x y)
  | 0x7 => .ok (.subnReg x y)
  | 0xE => .ok (.shlReg x y)
  | _ => .error .class8Selector

/-- Class E matches `nn` (R74, R76). -/
def decodeClassE (x : Reg) (nn : Byte) : Except Reject Instr :=
  if nn = 0x9E then .ok (.skp x) else if nn = 0xA1 then .ok (.sknp x) else .error .classESelector

/-- Class F matches `nn` (R74, R76). -/
def decodeClassF (x : Reg) (nn : Byte) : Except Reject Instr :=
  if nn = 0x07 then .ok (.ldVxDT x)
  else if nn = 0x0A then .ok (.ldVxK x)
  else if nn = 0x15 then .ok (.ldDTVx x)
  else if nn = 0x18 then .ok (.ldSTVx x)
  else if nn = 0x1E then .ok (.addI x)
  else if nn = 0x29 then .ok (.ldF x)
  else if nn = 0x33 then .ok (.ldB x)
  else if nn = 0x55 then .ok (.ldMemVx x)
  else if nn = 0x65 then .ok (.ldVxMem x)
  else .error .classFSelector

/-- The decoder: dispatch on `op`, then match the class's selector exactly (R74). -/
def decode (w : Word) : Except Reject Instr :=
  match (opField w).toNat with
  | 0x0 => .ok (decodeClass0 w)
  | 0x1 => .ok (.jp (nnnField w))
  | 0x2 => .ok (.call (nnnField w))
  | 0x3 => .ok (.seImm (xField w) (nnField w))
  | 0x4 => .ok (.sneImm (xField w) (nnField w))
  | 0x5 => if nField w = 0 then .ok (.seReg (xField w) (yField w)) else .error .class5Selector
  | 0x6 => .ok (.ldImm (xField w) (nnField w))
  | 0x7 => .ok (.addImm (xField w) (nnField w))
  | 0x8 => decodeClass8 (xField w) (yField w) (nField w).val
  | 0x9 => if nField w = 0 then .ok (.sneReg (xField w) (yField w)) else .error .class9Selector
  | 0xA => .ok (.ldI (nnnField w))
  | 0xB => .ok (.jpV0 (nnnField w))
  | 0xC => .ok (.rnd (xField w) (nnField w))
  | 0xD => .ok (.drw (xField w) (yField w) (nField w))
  | 0xE => decodeClassE (xField w) (nnField w)
  | _ => decodeClassF (xField w) (nnField w)

/-- Two bytes as a word, the byte at the lower address in bits 15..8 (R55). -/
def bigEndian (hi lo : Byte) : Word := hi ++ lo

/-- A word as memory holds it: the high byte at the lower address (R55). -/
def storedBytes (w : Word) : List Byte := [w.extractLsb' 8 8, w.extractLsb' 0 8]

/-- Decode the first instruction of a list of bytes and give the rest of the list (R70, R79). -/
def decodeBytes : List Byte → Except Reject (Instr × List Byte)
  | hi :: lo :: rest =>
    match decode (bigEndian hi lo) with
    | .ok i => .ok (i, rest)
    | .error e => .error e
  | _ => .error .tooShort

/-- A word of the opcode table as an instruction: its bits laid out as memory holds them and given to the decoder. No
instruction has more than 16 bits (R70), so a wider row is none. -/
def decodeTableWord (nbits w : Nat) : Option Instr :=
  if 16 < nbits then none
  else
    match decodeBytes (storedBytes (BitVec.ofNat 16 (w % 2 ^ nbits))) with
    | .ok (i, _) => some i
    | .error _ => none

/-- A register number as the four bits of its field (R71). -/
def regBits (x : Reg) : BitVec 4 := BitVec.ofFin x

/-- Format NNN (R72). -/
def wordNNN (op : BitVec 4) (nnn : Addr12) : Word := op ++ nnn

/-- Format XNN (R72); format X is it with a fixed `nn`. -/
def wordXNN (op : BitVec 4) (x : Reg) (nn : Byte) : Word := op ++ regBits x ++ nn

/-- Formats XY and XYN (R72). -/
def wordXYN (op : BitVec 4) (x y : Reg) (n : BitVec 4) : Word := op ++ regBits x ++ regBits y ++ n

/-- The word of an instruction (R72, R75). -/
def encode : Instr → Word
  | .cls => 0x00E0
  | .ret => 0x00EE
  | .sys nnn => wordNNN 0x0 nnn
  | .jp nnn => wordNNN 0x1 nnn
  | .call nnn => wordNNN 0x2 nnn
  | .seImm x nn => wordXNN 0x3 x nn
  | .sneImm x nn => wordXNN 0x4 x nn
  | .seReg x y => wordXYN 0x5 x y 0x0
  | .ldImm x nn => wordXNN 0x6 x nn
  | .addImm x nn => wordXNN 0x7 x nn
  | .ldReg x y => wordXYN 0x8 x y 0x0
  | .orReg x y => wordXYN 0x8 x y 0x1
  | .andReg x y => wordXYN 0x8 x y 0x2
  | .xorReg x y => wordXYN 0x8 x y 0x3
  | .addReg x y => wordXYN 0x8 x y 0x4
  | .subReg x y => wordXYN 0x8 x y 0x5
  | .shrReg x y => wordXYN 0x8 x y 0x6
  | .subnReg x y => wordXYN 0x8 x y 0x7
  | .shlReg x y => wordXYN 0x8 x y 0xE
  | .sneReg x y => wordXYN 0x9 x y 0x0
  | .ldI nnn => wordNNN 0xA nnn
  | .jpV0 nnn => wordNNN 0xB nnn
  | .rnd x nn => wordXNN 0xC x nn
  | .drw x y n => wordXYN 0xD x y (regBits n)
  | .skp x => wordXNN 0xE x 0x9E
  | .sknp x => wordXNN 0xE x 0xA1
  | .ldVxDT x => wordXNN 0xF x 0x07
  | .ldVxK x => wordXNN 0xF x 0x0A
  | .ldDTVx x => wordXNN 0xF x 0x15
  | .ldSTVx x => wordXNN 0xF x 0x18
  | .addI x => wordXNN 0xF x 0x1E
  | .ldF x => wordXNN 0xF x 0x29
  | .ldB x => wordXNN 0xF x 0x33
  | .ldMemVx x => wordXNN 0xF x 0x55
  | .ldVxMem x => wordXNN 0xF x 0x65

end Sys2Proof
end

