-- ==== Sys2Proof/Config.lean ====
section
/-! DEFINITION. What is fixed for this hardware (spec/00_scope.md rule R6) and the one free value of the model, the
random byte of CXNN (spec/42_alu.md rule R156; spec/93_implementation_defined.md U1). -/

namespace Sys2Proof.Config

/-- `MEM_SIZE`: bytes of memory, addresses 0..4095 (R6). -/
@[simp] def memSize : Nat := 4096

/-- `PROGRAM_START`: where the loader puts the image, and the reset value of pc (R6, R271). -/
@[simp] def programStart : Nat := 0x200

/-- `FONT_BASE`: the address of the first glyph byte (R6). -/
@[simp] def fontBase : Nat := 0

/-- `GLYPH_STRIDE`: bytes of one glyph (R6). -/
@[simp] def glyphStride : Nat := 5

/-- `STACK_CAPACITY`: the most return addresses held (R6, R32). -/
@[simp] def stackCapacity : Nat := 16

/-- `SCREEN_W`: framebuffer columns (R6). -/
@[simp] def screenW : Nat := 64

/-- `SCREEN_H`: framebuffer rows (R6). -/
@[simp] def screenH : Nat := 32

/-- `MAX_IMAGE`: the largest program image, `MEM_SIZE - PROGRAM_START` (R6, R275). -/
@[simp] def maxImage : Nat := 3584

/-- The byte the host's generator gives to the `k`-th execution of CXNN (R39, R156). FREE VALUE (log entry 2): it has no
body, so nothing can be proved of it but what holds for every byte. -/
opaque randomByte : Nat → Byte

/-- Glyphs 0 to 7 of the default font, five rows each, top row first (R273). -/
def fontLow : List Byte :=
  [0xF0, 0x90, 0x90, 0x90, 0xF0] ++ [0x20, 0x60, 0x20, 0x20, 0x70] ++
  [0xF0, 0x10, 0xF0, 0x80, 0xF0] ++ [0xF0, 0x10, 0xF0, 0x10, 0xF0] ++
  [0x90, 0x90, 0xF0, 0x10, 0x10] ++ [0xF0, 0x80, 0xF0, 0x10, 0xF0] ++
  [0xF0, 0x80, 0xF0, 0x90, 0xF0] ++ [0xF0, 0x10, 0x20, 0x40, 0x40]

/-- Glyphs 8 to F of the default font (R273). -/
def fontHigh : List Byte :=
  [0xF0, 0x90, 0xF0, 0x90, 0xF0] ++ [0xF0, 0x90, 0xF0, 0x10, 0xF0] ++
  [0xF0, 0x90, 0xF0, 0x90, 0x90] ++ [0xE0, 0x90, 0xE0, 0x90, 0xE0] ++
  [0xF0, 0x80, 0x80, 0x80, 0xF0] ++ [0xE0, 0x90, 0x90, 0x90, 0xE0] ++
  [0xF0, 0x80, 0xF0, 0x80, 0xF0] ++ [0xF0, 0x80, 0xF0, 0x80, 0x80]

/-- The default of the parameter `FONT`: the 80 bytes of R273. PRESUMED, unsafe (log entry 4): the spec takes them from general
knowledge (93_implementation_defined.md G1), so the loader takes the font as an argument. -/
def defaultFont : Vector Byte 80 := ⟨(fontLow ++ fontHigh).toArray, by decide⟩

end Sys2Proof.Config
end

