-- ==== Sys2Proof/Machine/State.lean ====
section
/-! DEFINITION. The state of the engine, all of it (spec/10_state.md rules R20 to R41), as plain data, and its value right
after reset (R41; spec/70_reset_and_hazards.md rule R270). -/

namespace Sys2Proof.Machine

/-- The outcome `fault` of the interface. It has NO constructor: the spec describes what a fatal fault does
(60_exceptions.md R244: FAULT is written and the engine is Halted), so a fatal fault is a NEXT state, and nothing in this
model stops a run (log entry 1). Safe: no run is cut short. -/
inductive Fault where
  deriving DecidableEq, Repr

/-- The outcome `refused` of the interface. -/
inductive Refusal where
  /-- An instruction without a meaning, raised by its arm of `exec` only. Every arm has its meaning, so nothing raises
  it. Safe: a refusal ends the run. -/
  | notModelled (mnemonic : String)
  deriving DecidableEq, Repr

/-- The kinds of fatal fault (60_exceptions.md R241). -/
inductive FaultKind where
  /-- An access needs an address above 4095: raised by fetch, DXYN, FX33, FX55, FX65. -/
  | memoryOutOfRange
  /-- CALL with 16 entries on the stack. -/
  | stackOverflow
  /-- RET with an empty stack. -/
  | stackUnderflow
  /-- EX9E or EXA1 with V[x] > 15. -/
  | invalidKey
  deriving DecidableEq, Repr

/-- The record of a fatal fault (60_exceptions.md R243). -/
structure FaultRecord where
  /-- The kind. -/
  kind : FaultKind
  /-- The address of the instruction that faulted. -/
  pc : Word
  /-- The fetched word; none for a fetch fault. -/
  word : Option Word
  /-- The lowest failing address, an exact integer, or the invalid key's value; none for the two stack faults (R241). -/
  info : Option Nat
  deriving DecidableEq, Repr

/-- A report on the diagnostics channel (60_exceptions.md R261). -/
inductive Report where
  /-- An Unknown or SYS word at address `pc`; not fatal (R248). -/
  | unknown (word pc : Word)
  /-- A fatal fault (R244). -/
  | fault (record : FaultRecord)
  deriving DecidableEq, Repr

/-- An output of a step (40_step_engine.md R90): a report, or the sound-stop signal (R100). -/
inductive Event where
  /-- A report on the diagnostics channel. -/
  | report (r : Report)
  /-- The host is to stop audio output. -/
  | soundStop
  deriving DecidableEq, Repr

/-- The run modes, derived from the state (10_state.md R37). -/
inductive RunMode where
  /-- No fault and no key wait. -/
  | running
  /-- No fault, and FX0A waits for a key. -/
  | awaitingKey
  /-- A fatal fault is recorded. -/
  | halted
  deriving DecidableEq, Repr

/-- 32 rows of 64 pixels, `true` = on (10_state.md R35). -/
abbrev Framebuffer := Vector (Vector Bool 64) 32

/-- Memory as (address, byte) pairs, addresses strictly rising and no byte 0: an unlisted address reads 0, the spec's reset
contents (10_state.md R41; 20_memory.md R50). `Memory.wf` states the form. -/
abbrev Memory := List Host.Cell

/-- The state (10_state.md R20), and the model's own last three fields. -/
structure State where
  /-- V[0..15]. -/
  v : Vector Byte 16
  /-- The index register I. -/
  i : Word
  /-- The program counter. -/
  pc : Word
  /-- The call stack S, its top at the end (00_scope.md R11). -/
  stack : List Word
  /-- The delay timer DT. -/
  dt : Byte
  /-- The sound timer ST. -/
  st : Byte
  /-- The framebuffer FB[row][col]. -/
  fb : Framebuffer
  /-- The keys K[0..15], `true` = pressed. -/
  keys : Vector Bool 16
  /-- AW: FX0A is waiting for a key. -/
  aw : Bool
  /-- KR: a press was delivered during the wait. -/
  kr : Bool
  /-- LK: the key that press delivered. -/
  lk : Reg
  /-- The memory M[0..4095]. -/
  mem : Memory
  /-- FAULT: the record of the fatal fault that halted the engine, if one did. -/
  fault : Option FaultRecord
  /-- The MODEL's own: the outputs emitted so far, the latest first (log entry 3). -/
  events : List Event
  /-- The MODEL's own: how many random bytes CXNN has taken (log entry 2). -/
  draws : Nat
  /-- The MODEL's own: the host's `load` may still come, neither a step nor a load having happened since reset (log entry 7). -/
  loadable : Bool
  deriving DecidableEq, Repr

/-- The machine right after reset, before the loader runs: R41, part by part. -/
def State.reset : State where
  v := Vector.replicate 16 0
  i := 0
  pc := 0x200
  stack := []
  dt := 0
  st := 0
  fb := Vector.replicate 32 (Vector.replicate 64 false)
  keys := Vector.replicate 16 false
  aw := false
  kr := false
  lk := 0
  mem := []
  fault := none
  events := []
  draws := 0
  loadable := true

end Sys2Proof.Machine
end

