-- ==== Sys2Proof/Machine/Memory.lean ====
section
/-! DEFINITION. Memory as data: one byte read, one byte written, and a run of bytes written (spec/20_memory.md rules R50
to R61). The bounds check stands before these, in Ops.lean (R52). -/

namespace Sys2Proof.Machine

/-- Strictly rising addresses from `lo` up, all below 4096, and no byte 0. -/
def Memory.wfFrom (lo : Nat) : Memory → Bool
  | [] => true
  | (a, b) :: rest => decide (lo ≤ a) && decide (a < 4096) && (b != 0) && Memory.wfFrom (a + 1) rest

/-- The canonical form of a memory: equal memories are equal data. -/
def Memory.wf (m : Memory) : Bool := Memory.wfFrom 0 m

/-- The byte at address `a`; 0 where the list has no entry (R41). -/
def memGet : Memory → Nat → Byte
  | [], _ => 0
  | (b, u) :: rest, a => if a < b then 0 else if a = b then u else memGet rest a

/-- A cell, unless it holds what an unlisted address reads as. -/
def cellOrNone (a : Nat) (u : Byte) : Memory := if u = 0 then [] else [(a, u)]

/-- Memory with byte `u` at address `a`, in canonical form. -/
def memSet : Memory → Nat → Byte → Memory
  | [], a, u => cellOrNone a u
  | (b, w) :: rest, a, u =>
    if a < b then cellOrNone a u ++ (b, w) :: rest
    else if a = b then cellOrNone a u ++ rest
    else (b, w) :: memSet rest a u

/-- Memory with the bytes of the list at `lo`, `lo + 1`, … (R56: increasing addresses). -/
def memSetRange : Memory → Nat → List Byte → Memory
  | m, _, [] => m
  | m, lo, u :: rest => memSetRange (memSet m lo u) (lo + 1) rest

end Sys2Proof.Machine
end

