-- ==== Sys2Proof/Machine/Ops.lean ====
section
/-! DEFINITION. The named operations every instruction is made of: registers, program counter, stack, the checked memory
accesses, the reports and the fault entry, and the end of a step. -/

namespace Sys2Proof.Machine

/-- What a step or a meaning answers. -/
abbrev Result := Host.Outcome State Fault Refusal

/-- V[x] (10_state.md R22). -/
def State.getV (s : State) (x : Reg) : Byte := s.v[x]

/-- `V[x] <- b`. No register is hard-wired (R22). -/
def State.setV (s : State) (x : Reg) (b : Byte) : State := { s with v := s.v.set x b }

/-- `I <- w` (10_state.md R31). -/
def State.setI (s : State) (w : Word) : State := { s with i := w }

/-- `pc <- w`: phase 4 (40_step_engine.md R98); a `Word` sum is the sum mod 2^16. -/
def State.setPc (s : State) (w : Word) : State := { s with pc := w }

/-- The default next pc, `pc + 2` (40_step_engine.md R95). -/
def State.advance (s : State) : State := s.setPc (s.pc + 2)

/-- A skip: `pc + 4` if the condition holds, else `pc + 2` (40_step_engine.md R97). -/
def State.skipIf (s : State) (c : Bool) : State := s.setPc (if c then s.pc + 4 else s.pc + 2)

/-- `S` becomes the given list. -/
def State.setStack (s : State) (l : List Word) : State := { s with stack := l }

/-- `push(S, a)`: append, the top at the end (00_scope.md R11). -/
def State.push (s : State) (a : Word) : State := s.setStack (s.stack ++ [a])

/-- `DT <- b` (10_state.md R34). -/
def State.setDT (s : State) (b : Byte) : State := { s with dt := b }

/-- `ST <- b` (10_state.md R34). -/
def State.setST (s : State) (b : Byte) : State := { s with st := b }

/-- The framebuffer becomes `f` (10_state.md R35). -/
def State.setFB (s : State) (f : Framebuffer) : State := { s with fb := f }

/-- `AW <- a; KR <- r` (10_state.md R36). -/
def State.setWait (s : State) (a r : Bool) : State := { s with aw := a, kr := r }

/-- Every general register at once. -/
def State.setRegs (s : State) (v : Vector Byte 16) : State := { s with v := v }

/-- Memory becomes `m`. -/
def State.setMem (s : State) (m : Memory) : State := { s with mem := m }

/-- One random byte is taken: the next CXNN takes the next one (00_scope.md R15; log entry 2). -/
def State.countDraw (s : State) : State := { s with draws := s.draws + 1 }

/-- Emit an output (40_step_engine.md R90; log entry 3). -/
def State.emit (s : State) (e : Event) : State := { s with events := e :: s.events }

/-- From now on the host's `load` is refused, until reset (70_reset_and_hazards.md R274; log entry 7). -/
def State.closeLoader (s : State) : State := { s with loadable := false }

/-- The byte of memory at `a`. -/
def State.byteAt (s : State) (a : Nat) : Byte := memGet s.mem a

/-- The range check: the lowest failing address of `lo .. lo + cnt - 1`, if one fails (43_index_memory.md R170;
20_memory.md R52). An empty range is not checked (44_display.md R192: `if n > 0`). -/
def checkRange (lo cnt : Nat) : Option Nat :=
  if 0 < cnt ∧ 4095 < lo + cnt - 1 then some (max lo 4096) else none

/-- The `cnt` bytes at `lo`, `lo + 1`, … of a memory. -/
def memBytes (m : Memory) : Nat → Nat → List Byte
  | _, 0 => []
  | lo, cnt + 1 => memGet m lo :: memBytes m (lo + 1) cnt

/-- Read `cnt` bytes from `lo` up: every address is checked first, and the error is the lowest failing one (20_memory.md
R54). -/
def State.readRange (s : State) (lo cnt : Nat) : Except Nat (List Byte) :=
  match checkRange lo cnt with
  | some a => .error a
  | none => .ok (memBytes s.mem lo cnt)

/-- Write the bytes from `lo` up: every address is checked first, and where one fails nothing is written (20_memory.md
R54). No address is protected (R60). -/
def State.writeRange (s : State) (lo : Nat) (bytes : List Byte) : Except Nat State :=
  match checkRange lo bytes.length with
  | some a => .error a
  | none => .ok (s.setMem (memSetRange s.mem lo bytes))

/-- Phase 1: the word at `pc`, big-endian, both addresses checked (20_memory.md R55; 40_step_engine.md R92). -/
def State.fetch (s : State) : Except Nat Word :=
  match checkRange s.pc.toNat 2 with
  | some a => .error a
  | none => .ok (bigEndian (s.byteAt s.pc.toNat) (s.byteAt (s.pc.toNat + 1)))

/-- TAKING A FATAL FAULT, the one fault entry of the engine (60_exceptions.md R243, R244): the record names the
instruction's address and word, FAULT holds it, it is reported, and nothing else changes. The engine is Halted from then on
(R246), and no instruction returns from it: only reset does (R247). It is applied to the state at the start of the step. -/
def State.raise (s : State) (kind : FaultKind) (word : Option Word) (info : Option Nat) : State :=
  { s with
    fault := some ⟨kind, s.pc, word, info⟩
    events := .report (.fault ⟨kind, s.pc, word, info⟩) :: s.events }

/-- `raise MemoryOutOfRange(a)` by instruction `i`, whose word is recorded (R243; log entry 8). -/
def State.raiseRange (s : State) (i : Instr) (a : Nat) : State :=
  s.raise .memoryOutOfRange (some (encode i)) (some a)

/-- `report Unknown(w, pc)`, and nothing else: the report is not fatal (60_exceptions.md R248). -/
def State.reportUnknown (s : State) (w : Word) : State := s.emit (.report (.unknown w s.pc))

/-- The no-op of an Unknown or SYS word: report it and go on at `pc + 2` (30_encoding.md R77). -/
def State.unknownNoOp (s : State) (w : Word) : State := (s.reportUnknown w).advance

/-- What a step does with an Unknown word (30_encoding.md R77; 60_exceptions.md R248). -/
def execUnknown (w : Word) (s : State) : Result := .next (s.unknownNoOp w)

/-- A timer one step on: one less while it is greater than zero (40_step_engine.md R99). -/
def countDown (t : Byte) : Byte := if t = 0 then 0 else t - 1

/-- Is the sound-stop signal due? `st0` is ST at the start of the step, `stm` after phase 3, `st1` after phase 5
(40_step_engine.md R100). -/
def soundStopDue (st0 stm st1 : Byte) : Bool := st1 == 0 && (st0 != 0 || stm != 0)

/-- Phase 5: both timers count down, and the sound-stop signal is emitted where it is due (40_step_engine.md R99, R100). -/
def State.tickTimers (s : State) (st0 : Byte) : State :=
  let t := (s.setDT (countDown s.dt)).setST (countDown s.st)
  if soundStopDue st0 s.st (countDown s.st) then t.emit .soundStop else t

/-- The end of a step that began in `s0` and whose instruction left `s`: a step that raised a fault does not reach phase 5
(40_step_engine.md R99, R103). After a step no load may come (70_reset_and_hazards.md R274). -/
def endStep (s0 s : State) : State :=
  match s.fault with
  | some _ => s.closeLoader
  | none => (s.tickTimers s0.st).closeLoader

/-- `endStep` over what the instruction answered. -/
def finishStep (s0 : State) : Result → Result
  | .next s => .next (endStep s0 s)
  | .fault f => .fault f
  | .refused r => .refused r

/-- `s` with the word `w` in memory where the next fetch reads it; the loader's stand-in (log entry 9). Where pc is past
4094 there is no such place and `s` stays. -/
def State.placeWord (s : State) (w : Word) : State :=
  if s.pc.toNat ≤ 4094 then s.setMem (memSetRange s.mem s.pc.toNat (storedBytes w)) else s

/-- The run mode (10_state.md R37). -/
def State.runMode (s : State) : RunMode :=
  match s.fault with
  | some _ => .halted
  | none => if s.aw then .awaitingKey else .running

/-- The numeric code of a fatal fault; no instruction reads it (60_exceptions.md R242). -/
def faultCode : FaultKind → Nat
  | .memoryOutOfRange => 1
  | .stackOverflow => 2
  | .stackUnderflow => 3
  | .invalidKey => 4

/-- The numeric code of a report: 0 for Unknown (60_exceptions.md R242). -/
def reportCode : Report → Nat
  | .unknown _ _ => 0
  | .fault r => faultCode r.kind

end Sys2Proof.Machine
end

