-- ==== Sys2Proof/Machine/Operands.lean ====
section
/-! DEFINITION. Every operand form of the engine (spec/30_encoding.md rule R73; spec/43_index_memory.md rule R177): no form
modifies its base register, nothing is sign-extended, and only FX29 scales. Register and byte-immediate operands are
`State.getV` and the constant itself. -/

namespace Sys2Proof.Machine

/-- Absolute 12-bit: `zext_16(nnn)` (R73, R177). -/
def absolute (nnn : Addr12) : Word := nnn.setWidth 16

/-- Indexed by V0: `zext_16(nnn) + V[0]`, exact, at most 0x10FE (41_control_flow.md R119). -/
def State.indexedByV0 (s : State) (nnn : Addr12) : Word := absolute nnn + (s.getV 0).setWidth 16

/-- The base of a register-indirect access through I, an exact integer: the k-th byte is at `indexBase + k` with no wrap
(20_memory.md R51). -/
def State.indexBase (s : State) : Nat := s.i.toNat

/-- I plus V[x], mod 65536 (43_index_memory.md R172). -/
def State.indexPlus (s : State) (x : Reg) : Word := s.i + (s.getV x).setWidth 16

/-- The glyph address `FONT_BASE + 5 * b`, unmasked, at most 1275 (43_index_memory.md R173). -/
def glyphAddress (b : Byte) : Word := BitVec.ofNat 16 (Config.fontBase + Config.glyphStride * b.toNat)

/-- The key numbered by a register; none above 15 (45_timers_keys.md R211, R212). -/
def keyNumber (b : Byte) : Option Reg := if h : b.toNat < 16 then some ⟨b.toNat, h⟩ else none

/-- A key number as a register's value (45_timers_keys.md R214). -/
def keyByte (k : Reg) : Byte := BitVec.ofNat 8 k.val

/-- The hundreds, tens and units digits of a byte (43_index_memory.md R174). -/
def bcdDigits (b : Byte) : List Byte := [b / 100, b / 10 % 10, b % 10]

/-- V0..Vx, V0 first (43_index_memory.md R175). -/
def State.regsUpTo (s : State) (x : Reg) : List Byte := s.v.toList.take (x.val + 1)

/-- The register file with the bytes of the list in V0, V1, …, as many as there are (43_index_memory.md R176). -/
def loadRegs (v : Vector Byte 16) (bytes : List Byte) : Vector Byte 16 :=
  Vector.ofFn fun k : Reg => bytes.getD k.val v[k]

/-- The column a draw starts at, `V[x] mod 64` (44_display.md R192, R194). -/
def State.startCol (s : State) (x : Reg) : Nat := (s.getV x).toNat % 64

/-- The row a draw starts at, `V[y] mod 32` (44_display.md R192, R194). -/
def State.startRow (s : State) (y : Reg) : Nat := (s.getV y).toNat % 32

end Sys2Proof.Machine
end

