-- ==== Sys2Proof/Machine/Flags.lean ====
section
/-! DEFINITION. Every flag computation, and the ALU as one function (spec/42_alu.md rules R140, R153, R154; spec/10_state.md
rules R24, R25). VF receives exactly 0 or 1 and is written last, so with x = 15 the flag is what stays. -/

namespace Sys2Proof.Machine

/-- The number of the flag register (10_state.md R24). -/
def flagReg : Reg := 15

/-- A flag as VF holds it: 1 or 0 (R140). -/
def flagByte (f : Bool) : Byte := if f then 1 else 0

/-- `V[15] <- f`, unconditionally, never OR'd (R140). -/
def State.setFlag (s : State) (f : Bool) : State := s.setV flagReg (flagByte f)

/-- The carry out of bit 7 of `a + b` (R147). -/
def carryOut (a b : Byte) : Bool := decide (255 < a.toNat + b.toNat)

/-- Not-borrow of `a - b`: 1 where `a ≥ b`, so for equal operands too (R148, R150). -/
def notBorrow (a b : Byte) : Bool := decide (b.toNat ≤ a.toNat)

/-- The bit a right shift drops, old bit 0 (R149). -/
def lowBit (a : Byte) : Bool := a.getLsbD 0

/-- The bit a left shift drops, old bit 7 (R151). -/
def highBit (a : Byte) : Bool := a.getLsbD 7

/-- The operations of the ALU (R153). -/
inductive AluOp where
  /-- Selector 0. -/
  | assign
  /-- Selector 1. -/
  | or
  /-- Selector 2. -/
  | and
  /-- Selector 3. -/
  | xor
  /-- Selector 4. -/
  | add
  /-- Selector 5. -/
  | sub
  /-- Selector 6. -/
  | shr
  /-- Selector 7. -/
  | subn
  /-- Selector E. -/
  | shl
  /-- 7XNN. -/
  | addNoFlag
  deriving DecidableEq, Repr

/-- `alu(op, a, b) -> (res, f)`: the result, and the flag where the operation defines one (R153). -/
def alu (op : AluOp) (a b : Byte) : Byte × Option Bool :=
  match op with
  | .assign => (b, none)
  | .or => (a ||| b, none)
  | .and => (a &&& b, none)
  | .xor => (a ^^^ b, none)
  | .add => (a + b, some (carryOut a b))
  | .sub => (a - b, some (notBorrow a b))
  | .shr => (a >>> 1, some (lowBit a))
  | .subn => (b - a, some (notBorrow b a))
  | .shl => (a <<< 1, some (highBit a))
  | .addNoFlag => (a + b, none)

/-- Write an ALU result to V[x], then its flag to VF where it has one (R14, R140). -/
def State.writeAlu (s : State) (x : Reg) (r : Byte × Option Bool) : State :=
  match r.2 with
  | none => s.setV x r.1
  | some f => (s.setV x r.1).setFlag f

/-- One ALU instruction: both operands are read from the state it starts in, the result and flag are written, pc advances. -/
def State.aluStep (s : State) (op : AluOp) (x : Reg) (b : Byte) : State :=
  (s.writeAlu x (alu op (s.getV x) b)).advance

end Sys2Proof.Machine
end

