-- ==== Sys2Proof/Machine/Alu.lean ====
section
/-! DEFINITION. Register loads, the ALU and the random byte (spec/42_alu.md rules R140 to R156). None raises anything or
touches memory; each goes on at `pc + 2`. -/

namespace Sys2Proof.Machine

/-- 6XNN LD Vx, nn (R141). -/
def execLdImm (x : Reg) (nn : Byte) (s : State) : Result := .next (s.setV x nn).advance

/-- 7XNN ADD Vx, nn: mod 256, no flag (R142, C2). -/
def execAddImm (x : Reg) (nn : Byte) (s : State) : Result := .next (s.aluStep .addNoFlag x nn)

/-- 8XY0 LD Vx, Vy (R143). -/
def execLdReg (x y : Reg) (s : State) : Result := .next (s.aluStep .assign x (s.getV y))

/-- 8XY1 OR Vx, Vy: VF is not written (R144). -/
def execOrReg (x y : Reg) (s : State) : Result := .next (s.aluStep .or x (s.getV y))

/-- 8XY2 AND Vx, Vy: VF is not written (R145). -/
def execAndReg (x y : Reg) (s : State) : Result := .next (s.aluStep .and x (s.getV y))

/-- 8XY3 XOR Vx, Vy: VF is not written (R146). -/
def execXorReg (x y : Reg) (s : State) : Result := .next (s.aluStep .xor x (s.getV y))

/-- 8XY4 ADD Vx, Vy, VF = carry (R147). -/
def execAddReg (x y : Reg) (s : State) : Result := .next (s.aluStep .add x (s.getV y))

/-- 8XY5 SUB Vx, Vy, VF = not borrow (R148). -/
def execSubReg (x y : Reg) (s : State) : Result := .next (s.aluStep .sub x (s.getV y))

/-- 8XY6 SHR Vx, VF = old bit 0; V[y] is never read (R149). -/
def execShrReg (x _y : Reg) (s : State) : Result := .next (s.aluStep .shr x 0)

/-- 8XY7 SUBN Vx, Vy: Vy − Vx, VF = not borrow (R150). -/
def execSubnReg (x y : Reg) (s : State) : Result := .next (s.aluStep .subn x (s.getV y))

/-- 8XYE SHL Vx, VF = old bit 7; V[y] is never read (R151). -/
def execShlReg (x _y : Reg) (s : State) : Result := .next (s.aluStep .shl x 0)

/-- CXNN with the drawn byte `r`: `V[x] <- r & nn` (R156). -/
def State.rndWith (s : State) (x : Reg) (nn r : Byte) : State := (s.setV x (r &&& nn)).countDraw.advance

/-- CXNN RND Vx, nn: the byte is the free value of this draw (R156; log entry 2). -/
def execRnd (x : Reg) (nn : Byte) (s : State) : Result := .next (s.rndWith x nn (Config.randomByte s.draws))

end Sys2Proof.Machine
end

