-- ==== Sys2Proof/Machine/Control.lean ====
section
/-! DEFINITION. Control flow: SYS, RET, JP, CALL and the register skips (spec/41_control_flow.md rules R110 to R121). No
target is checked when it is written: an out-of-range one faults at the next fetch (R110). -/

namespace Sys2Proof.Machine

/-- 0NNN SYS: the reported no-op (R111). -/
def execSys (nnn : Addr12) (s : State) : Result := .next (s.unknownNoOp (encode (.sys nnn)))

/-- 00EE RET: pop the return address into pc, with no further advance; StackUnderflow on an empty stack (R112). -/
def execRet (s : State) : Result :=
  match s.stack.getLast? with
  | none => .next (s.raise .stackUnderflow (some (encode .ret)) none)
  | some a => .next ((s.setStack s.stack.dropLast).setPc a)

/-- 1NNN JP (R113). -/
def execJp (nnn : Addr12) (s : State) : Result := .next (s.setPc (absolute nnn))

/-- 2NNN CALL: push the address after the CALL, then jump; StackOverflow where 16 entries are held (R114). -/
def execCall (nnn : Addr12) (s : State) : Result :=
  if Config.stackCapacity ≤ s.stack.length then
    .next (s.raise .stackOverflow (some (encode (.call nnn))) none)
  else .next ((s.push (s.pc + 2)).setPc (absolute nnn))

/-- 3XNN SE Vx, nn (R115). -/
def execSeImm (x : Reg) (nn : Byte) (s : State) : Result := .next (s.skipIf (s.getV x == nn))

/-- 4XNN SNE Vx, nn (R116). -/
def execSneImm (x : Reg) (nn : Byte) (s : State) : Result := .next (s.skipIf (s.getV x != nn))

/-- 5XY0 SE Vx, Vy (R117). -/
def execSeReg (x y : Reg) (s : State) : Result := .next (s.skipIf (s.getV x == s.getV y))

/-- 9XY0 SNE Vx, Vy (R118). -/
def execSneReg (x y : Reg) (s : State) : Result := .next (s.skipIf (s.getV x != s.getV y))

/-- BNNN JP V0, nnn (R119). -/
def execJpV0 (nnn : Addr12) (s : State) : Result := .next (s.setPc (s.indexedByV0 nnn))

end Sys2Proof.Machine
end

