-- ==== Sys2Proof/Machine/Display.lean ====
section
/-! DEFINITION. The framebuffer (spec/44_display.md rules R190 to R197): clear, and the XOR draw with wrapping and
collision. -/

namespace Sys2Proof.Machine

/-- The pixel at a row and column (R190). -/
def pixelAt (f : Framebuffer) (row : Fin 32) (col : Fin 64) : Bool := f[row][col]

/-- `FB[row][col] <- not FB[row][col]` (R192). -/
def flipPixel (f : Framebuffer) (row : Fin 32) (col : Fin 64) : Framebuffer :=
  f.set row (f[row].set col (!f[row][col]))

/-- Every pixel off (R191). -/
def clearedFB : Framebuffer := Vector.replicate 32 (Vector.replicate 64 false)

/-- Bit `c` of a sprite row from the left: bit 7 is the leftmost pixel (R193). -/
def spriteBit (b : Byte) (c : Nat) : Bool := b.getLsbD (7 - c)

/-- The pixel `c` columns right of `x0`, in row `y0`, both wrapped: `((y0) mod 32, (x0 + c) mod 64)` (R194). -/
def wrapPixel (x0 y0 c : Nat) : Fin 32 × Fin 64 := (Fin.ofNat 32 y0, Fin.ofNat 64 (x0 + c))

/-- The pixels one sprite row toggles, left to right (R192). -/
def rowPixels (x0 y0 : Nat) (b : Byte) : List (Fin 32 × Fin 64) :=
  ((List.range 8).filter (spriteBit b)).map (wrapPixel x0 y0)

/-- The pixels a sprite toggles, row after row downwards (R192). -/
def spritePixels (x0 y0 : Nat) : List Byte → List (Fin 32 × Fin 64)
  | [] => []
  | b :: rest => rowPixels x0 y0 b ++ spritePixels x0 (y0 + 1) rest

/-- A draw in progress: the framebuffer, and whether a pixel went from on to off. -/
structure Canvas where
  /-- The framebuffer so far. -/
  fb : Framebuffer
  /-- `collided` so far. -/
  collided : Bool
  deriving DecidableEq, Repr

/-- Toggle one pixel and note a collision (R192, R195). -/
def togglePixel (d : Canvas) (p : Fin 32 × Fin 64) : Canvas :=
  { fb := flipPixel d.fb p.1 p.2, collided := d.collided || pixelAt d.fb p.1 p.2 }

/-- The whole draw of a sprite whose rows are the bytes of the list (R192). -/
def drawSprite (f : Framebuffer) (x0 y0 : Nat) (rows : List Byte) : Canvas :=
  (spritePixels x0 y0 rows).foldl togglePixel { fb := f, collided := false }

/-- 00E0 CLS: VF is not written (R191). -/
def execCls (s : State) : Result := .next (s.setFB clearedFB).advance

/-- DXYN DRW Vx, Vy, n: the coordinates are read before VF is written, and VF is always written (R192 to R196). R197's
sentence on a second draw says more of VF than R192 gives; R192 is followed (log entry 10). -/
def execDrw (x y : Reg) (n : Fin 16) (s : State) : Result :=
  match s.readRange s.indexBase n.val with
  | .error a => .next (s.raiseRange (.drw x y n) a)
  | .ok rows =>
    let d := drawSprite s.fb (s.startCol x) (s.startRow y) rows
    .next ((s.setFB d.fb).setFlag d.collided).advance

end Sys2Proof.Machine
end

