-- ==== Sys2Proof/Machine/IndexMemory.lean ====
section
/-! DEFINITION. The index register and the memory transfers (spec/43_index_memory.md rules R170 to R177). Each goes on at
`pc + 2`; a transfer that leaves memory raises MemoryOutOfRange and does nothing else (R170). -/

namespace Sys2Proof.Machine

/-- ANNN LD I, nnn (R171). -/
def execLdI (nnn : Addr12) (s : State) : Result := .next (s.setI (absolute nnn)).advance

/-- FX1E ADD I, Vx: mod 65536, no flag, no range check (R172). -/
def execAddI (x : Reg) (s : State) : Result := .next (s.setI (s.indexPlus x)).advance

/-- FX29 LD F, Vx: `5 * V[x]`, unmasked (R173). -/
def execLdF (x : Reg) (s : State) : Result := .next (s.setI (glyphAddress (s.getV x))).advance

/-- FX33 LD B, Vx: hundreds, tens and units at I, I + 1, I + 2 (R174). R174 disagrees with itself at I = 4093; here that
store is in range, as R174's pseudocode and Exceptions, R170 and vector MEM-12 have it. DEDUCED (log entry 13). -/
def execLdB (x : Reg) (s : State) : Result :=
  match s.writeRange s.indexBase (bcdDigits (s.getV x)) with
  | .error a => .next (s.raiseRange (.ldB x) a)
  | .ok t => .next t.advance

/-- FX55 LD [I], Vx: V0..Vx to memory from I up; I is unchanged (R175). -/
def execLdMemVx (x : Reg) (s : State) : Result :=
  match s.writeRange s.indexBase (s.regsUpTo x) with
  | .error a => .next (s.raiseRange (.ldMemVx x) a)
  | .ok t => .next t.advance

/-- FX65 LD Vx, [I]: V0..Vx from memory from I up; I is unchanged (R176). -/
def execLdVxMem (x : Reg) (s : State) : Result :=
  match s.readRange s.indexBase (x.val + 1) with
  | .error a => .next (s.raiseRange (.ldVxMem x) a)
  | .ok bytes => .next (s.setRegs (loadRegs s.v bytes)).advance

end Sys2Proof.Machine
end

