-- ==== Sys2Proof/Machine/Input.lean ====
section
/-! DEFINITION. The key skips, the timers and the key wait (spec/45_timers_keys.md rules R210 to R216). The timers count
down in phase 5 of the step, in Ops.lean (R99). -/

namespace Sys2Proof.Machine

/-- Skip on the state of the key numbered by a register, or fault where there is no such key (R211, R212). -/
def keySkip (i : Instr) (b : Byte) (wanted : Bool) (s : State) : Result :=
  match keyNumber b with
  | none => .next (s.raise .invalidKey (some (encode i)) (some b.toNat))
  | some k => .next (s.skipIf (s.keys[k] == wanted))

/-- EX9E SKP Vx (R211). -/
def execSkp (x : Reg) (s : State) : Result := keySkip (.skp x) (s.getV x) true s

/-- EXA1 SKNP Vx (R212). -/
def execSknp (x : Reg) (s : State) : Result := keySkip (.sknp x) (s.getV x) false s

/-- FX07 LD Vx, DT: the value before this step's decrement (R210, R213). -/
def execLdVxDT (x : Reg) (s : State) : Result := .next (s.setV x s.dt).advance

/-- FX0A LD Vx, K: start the wait, or complete it where a press was delivered, or keep waiting (R214). While it waits pc
stays, so the next step runs it again (C12). -/
def execLdVxK (x : Reg) (s : State) : Result :=
  if s.aw then
    if s.kr then .next ((s.setV x (keyByte s.lk)).setWait false false).advance
    else .next s
  else .next (s.setWait true false)

/-- FX15 LD DT, Vx (R215). -/
def execLdDTVx (x : Reg) (s : State) : Result := .next (s.setDT (s.getV x)).advance

/-- FX18 LD ST, Vx (R216). -/
def execLdSTVx (x : Reg) (s : State) : Result := .next (s.setST (s.getV x)).advance

end Sys2Proof.Machine
end

