-- ==== Sys2Proof/Machine/HostOps.lean ====
section
/-! DEFINITION. The host's operations on the engine, other than `step` (spec/60_exceptions.md rules R256 to R263;
spec/45_timers_keys.md rule R217; spec/70_reset_and_hazards.md rules R270 to R277). Each runs alone, between steps. -/

namespace Sys2Proof.Machine

/-- Why the engine refuses a host operation; its state is then unchanged (R263). -/
inductive HostRefusal where
  /-- `deliver_key` with k outside 0..15 (R217). -/
  | noSuchKey
  /-- `load` of more than 3584 bytes (R275). -/
  | imageTooLarge
  /-- `load` after the first step, or a second load (R274). -/
  | notJustAfterReset
  deriving DecidableEq, Repr

/-- `reset()` (R270): every part of the engine's state at its reset value, and a load may come again. It emits nothing, and
the host's generator goes on where it was (log entry 6). -/
def hostReset (s : State) : State := { State.reset with events := s.events, draws := s.draws }

/-- `deliver_key(k, down)` (R217): a press during a wait is latched, anything else sets or clears K[k]. -/
def deliverKey (k : Nat) (down : Bool) (s : State) : Except HostRefusal State :=
  if h : k < 16 then
    if s.aw && down then .ok { s with kr := true, lk := ⟨k, h⟩ }
    else .ok { s with keys := s.keys.set k down h }
  else .error .noSuchKey

/-- Memory after the loader, on memory `m`: the font at 0, the image at 512 (R274). -/
def loadedMemory (m : Memory) (font : Vector Byte 80) (image : List Byte) : Memory :=
  memSetRange (memSetRange m Config.fontBase font.toList) Config.programStart image

/-- `load(image)` with the parameter `FONT` given: refused where the image is too large, after a step, and after a load
(R274, R275; log entry 7). A refused load leaves the state as it is (R263). -/
def loadImage (font : Vector Byte 80) (image : List Byte) (s : State) : Except HostRefusal State :=
  if Config.maxImage < image.length then .error .imageTooLarge
  else if s.loadable then .ok (s.setMem (loadedMemory s.mem font image)).closeLoader
  else .error .notJustAfterReset

/-- The state a program starts in: reset, then loaded with the default font (R276, R277; log entry 9). -/
def boot (image : List Byte) : Except HostRefusal State := loadImage Config.defaultFont image State.reset

/-- `read_framebuffer()` (R259). -/
def readFramebuffer (s : State) : Framebuffer := s.fb

/-- `read_sound()`, the level: "tone on" while ST is not 0 (R101, R260). The sound-stop signal is in `events`. -/
def toneOn (s : State) : Bool := s.st != 0

/-- `diagnostics`: the reports emitted so far, the latest first (R261). -/
def diagnostics (s : State) : List Report :=
  s.events.filterMap fun e =>
    match e with
    | .report r => some r
    | .soundStop => none

/-- `read_fault()` (R256). -/
def readFault (s : State) : Option FaultRecord := s.fault

end Sys2Proof.Machine
end

