-- ==== Sys2Proof/Machine/Step.lean ====
section
/-! DEFINITION. One step of the engine (spec/40_step_engine.md rule R103), and the placing of a word where the next step
fetches it. -/

namespace Sys2Proof.Machine

/-- A step: nothing while Halted (R91); fetch, whose fault records no word (R92, R243); decode (R93); execute, an Unknown
word as its reported no-op (R94, R248); then the end of the step, after a fetch fault too (R99, R100). -/
def step (s : State) : Host.Outcome State Fault Refusal :=
  match s.fault with
  | some _ => .next s
  | none =>
    match s.fetch with
    | .error a => .next (endStep s (s.raise .memoryOutOfRange none (some a)))
    | .ok w =>
      match decode w with
      | .ok i => finishStep s (exec i s)
      | .error _ => finishStep s (execUnknown w s)

/-- `s` with the instruction whose bits are `w` in memory at pc, so that the next step of a state that is not Halted and
whose pc is at most 4094 fetches and runs it (log entry 9). -/
def State.withFetchWord (s : State) (nbits w : Nat) : State := s.placeWord (BitVec.ofNat 16 (w % 2 ^ nbits))

end Sys2Proof.Machine
end

