-- ==== Sys2Proof/Safety.lean ====
section
/-! DEFINITION. The terms claims are made in: what an operation leaves unchanged, what holds of every state a run reaches,
and what an opcode-table row says of a word. -/

namespace Sys2Proof.Machine

/-- The parts of the state (spec/10_state.md rule R20, and the model's three own fields). -/
inductive Part where
  | regs | index | pc | stack | dt | st | fb | keys | aw | kr | lk | memory | fault | events | draws | loadable
  deriving DecidableEq, Repr

/-- The part is the same in both states; registers and memory as their readers see them, register by register and byte by
byte. -/
def Part.Same (s t : State) : Part → Prop
  | .regs => ∀ r, t.getV r = s.getV r
  | .index => t.i = s.i
  | .pc => t.pc = s.pc
  | .stack => t.stack = s.stack
  | .dt => t.dt = s.dt
  | .st => t.st = s.st
  | .fb => t.fb = s.fb
  | .keys => t.keys = s.keys
  | .aw => t.aw = s.aw
  | .kr => t.kr = s.kr
  | .lk => t.lk = s.lk
  | .memory => ∀ a, t.byteAt a = s.byteAt a
  | .fault => t.fault = s.fault
  | .events => t.events = s.events
  | .draws => t.draws = s.draws
  | .loadable => t.loadable = s.loadable

/-- Every part but those of the list is unchanged from `s` to `t`: the frame of an operation. -/
def KeepsAllBut (changed : List Part) (s t : State) : Prop := ∀ p, p ∉ changed → p.Same s t

/-- Every register but those of the list is unchanged. -/
def KeepsRegsBut (changed : List Reg) (s t : State) : Prop := ∀ r, r ∉ changed → t.getV r = s.getV r

/-- Every byte of memory outside the `n` bytes at `lo` is unchanged. -/
def KeepsBytesOutside (lo n : Nat) (s t : State) : Prop :=
  ∀ a, a < lo ∨ lo + n ≤ a → t.byteAt a = s.byteAt a

/-- From `s` to `t` the fatal fault `r` was taken, and nothing else happened (spec/60_exceptions.md rules R243, R244). -/
def TookFault (r : FaultRecord) (s t : State) : Prop :=
  t.fault = some r ∧ t.events = .report (.fault r) :: s.events ∧ KeepsAllBut [.fault, .events] s t

/-- A step from `s` to `t` took the fatal fault `r`, and nothing else happened but that no load may come after it. -/
def StepTookFault (r : FaultRecord) (s t : State) : Prop := ∃ u, TookFault r s u ∧ t = u.closeLoader

/-- The record has the address of its instruction and the info its kind has (spec/60_exceptions.md rules R241, R243). -/
def FaultRecord.fits (r : FaultRecord) (pc : Word) : Prop :=
  r.pc = pc ∧
    match r.kind with
    | .memoryOutOfRange => ∃ a, r.info = some a ∧ 4096 ≤ a
    | .stackOverflow => r.info = none
    | .stackUnderflow => r.info = none
    | .invalidKey => ∃ k, r.info = some k ∧ 16 ≤ k ∧ k ≤ 255

/-- The word the next step fetches, where pc is inside memory (spec/20_memory.md rule R55). -/
def State.wordAtPc (s : State) : Word := bigEndian (s.byteAt s.pc.toNat) (s.byteAt (s.pc.toNat + 1))

/-- What holds at reset and after every step and host operation. -/
structure StateInv (s : State) : Prop where
  /-- Memory is in its canonical form, within 0..4095 (20_memory.md R50). -/
  mem_wf : s.mem.wf = true
  /-- At most 16 return addresses are held (10_state.md R32). -/
  stack_bounded : s.stack.length ≤ 16
  /-- Each is the address after a CALL that was fetched (41_control_flow.md R114). -/
  stack_entries : ∀ a ∈ s.stack, 2 ≤ a.toNat ∧ a.toNat ≤ 4096
  /-- A press is latched only during a wait (10_state.md R36). -/
  kr_in_wait : s.kr = true → s.aw = true
  /-- A wait is that of the FX0A at pc, and no fault is recorded (10_state.md R36; 60_exceptions.md R252). -/
  wait_at_fx0a : s.aw = true → s.fault = none ∧ s.pc.toNat ≤ 4094 ∧ ∃ x, decode s.wordAtPc = .ok (.ldVxK x)
  /-- A recorded fault names the instruction at pc (60_exceptions.md R243, R244). -/
  fault_at_pc : ∀ r, s.fault = some r → r.fits s.pc
  /-- Where a load may still come, the state is the one just after reset, but for the keys the host has delivered since, the
  outputs and the generator's place (70_reset_and_hazards.md R274). -/
  loader_at_reset : s.loadable = true → s = { State.reset with keys := s.keys, events := s.events, draws := s.draws }

/-- From `s` to `t` register `x` received the number `res`, pc went on by 2, and nothing else changed. -/
def WroteReg (x : Reg) (res : Nat) (s t : State) : Prop :=
  (t.getV x).toNat = res ∧ KeepsRegsBut [x] s t ∧ t.pc = s.pc + 2 ∧ KeepsAllBut [.regs, .pc] s t

/-- From `s` to `t` register `x` received `res` and then VF the flag `flag`, so that with `x` = F the flag is what stays; pc
went on by 2, and nothing else changed (spec/42_alu.md rule R140). -/
def WroteRegAndFlag (x : Reg) (res flag : Nat) (s t : State) : Prop :=
  (x ≠ flagReg → (t.getV x).toNat = res) ∧ (t.getV flagReg).toNat = flag ∧ KeepsRegsBut [x, flagReg] s t ∧
    t.pc = s.pc + 2 ∧ KeepsAllBut [.regs, .pc] s t

/-- The instruction may write register `r`: the writes column of spec/10_state.md rule R23. -/
def mayWriteReg (i : Instr) (r : Reg) : Prop :=
  match i with
  | .ldImm x _ | .addImm x _ | .ldReg x _ | .orReg x _ | .andReg x _ | .xorReg x _ | .rnd x _ => r = x
  | .ldVxDT x | .ldVxK x => r = x
  | .addReg x _ | .subReg x _ | .shrReg x _ | .subnReg x _ | .shlReg x _ => r = x ∨ r = flagReg
  | .drw _ _ _ => r = flagReg
  | .ldVxMem x => r ≤ x
  | .cls | .ret | .sys _ | .jp _ | .call _ | .seImm _ _ | .sneImm _ _ | .seReg _ _ | .sneReg _ _ => False
  | .ldI _ | .jpV0 _ | .skp _ | .sknp _ | .ldDTVx _ | .ldSTVx _ | .addI _ | .ldF _ | .ldB _ | .ldMemVx _ => False

/-- The state at pc is about to run instruction `i`: the engine is not Halted, pc is inside memory and the word there decodes
to `i` (spec/40_step_engine.md rules R91 to R93). -/
def AboutToRun (s : State) (i : Instr) : Prop :=
  s.fault = none ∧ s.pc.toNat ≤ 4094 ∧ decode s.wordAtPc = .ok i

/-- In a step from `s` that fetches, execution (phases 3 and 4) leaves `m`: that of the decoded instruction, or the reported
no-op of an Unknown word (spec/40_step_engine.md rules R92 to R98). -/
def ExecutionLeaves (s m : State) : Prop :=
  s.fault = none ∧ s.pc.toNat ≤ 4094 ∧
    match decode s.wordAtPc with
    | .ok i => exec i s = .next m
    | .error _ => execUnknown s.wordAtPc s = .next m

/-- A run of steps, with keys delivered between them, from the first state to the second, in which the stack never holds
fewer than `d` entries. -/
inductive RunAbove (d : Nat) (s : State) : State → Prop
  /-- No step. -/
  | none : d ≤ s.stack.length → RunAbove d s s
  /-- One more step. -/
  | more {t u : State} : RunAbove d s t → step t = .next u → d ≤ u.stack.length → RunAbove d s u
  /-- One more key delivery (spec/45_timers_keys.md rule R217). -/
  | key {t u : State} {k : Nat} {down : Bool} : RunAbove d s t → deliverKey k down t = .ok u → RunAbove d s u

/-- A row of the opcode map: a word selects it when `(w & mask) = value` (spec/30_encoding.md rule R75). -/
structure TableRow where
  /-- The mask. -/
  mask : Word
  /-- The match. -/
  value : Word
  deriving DecidableEq, Repr

/-- The row of an instruction, as spec/opcode_table.json gives it (R75). -/
def rowOf : Instr → TableRow
  | .cls => ⟨0xFFFF, 0x00E0⟩
  | .ret => ⟨0xFFFF, 0x00EE⟩
  | .sys _ => ⟨0xF000, 0x0000⟩
  | .jp _ => ⟨0xF000, 0x1000⟩
  | .call _ => ⟨0xF000, 0x2000⟩
  | .seImm _ _ => ⟨0xF000, 0x3000⟩
  | .sneImm _ _ => ⟨0xF000, 0x4000⟩
  | .seReg _ _ => ⟨0xF00F, 0x5000⟩
  | .ldImm _ _ => ⟨0xF000, 0x6000⟩
  | .addImm _ _ => ⟨0xF000, 0x7000⟩
  | .ldReg _ _ => ⟨0xF00F, 0x8000⟩
  | .orReg _ _ => ⟨0xF00F, 0x8001⟩
  | .andReg _ _ => ⟨0xF00F, 0x8002⟩
  | .xorReg _ _ => ⟨0xF00F, 0x8003⟩
  | .addReg _ _ => ⟨0xF00F, 0x8004⟩
  | .subReg _ _ => ⟨0xF00F, 0x8005⟩
  | .shrReg _ _ => ⟨0xF00F, 0x8006⟩
  | .subnReg _ _ => ⟨0xF00F, 0x8007⟩
  | .shlReg _ _ => ⟨0xF00F, 0x800E⟩
  | .sneReg _ _ => ⟨0xF00F, 0x9000⟩
  | .ldI _ => ⟨0xF000, 0xA000⟩
  | .jpV0 _ => ⟨0xF000, 0xB000⟩
  | .rnd _ _ => ⟨0xF000, 0xC000⟩
  | .drw _ _ _ => ⟨0xF000, 0xD000⟩
  | .skp _ => ⟨0xF0FF, 0xE09E⟩
  | .sknp _ => ⟨0xF0FF, 0xE0A1⟩
  | .ldVxDT _ => ⟨0xF0FF, 0xF007⟩
  | .ldVxK _ => ⟨0xF0FF, 0xF00A⟩
  | .ldDTVx _ => ⟨0xF0FF, 0xF015⟩
  | .ldSTVx _ => ⟨0xF0FF, 0xF018⟩
  | .addI _ => ⟨0xF0FF, 0xF01E⟩
  | .ldF _ => ⟨0xF0FF, 0xF029⟩
  | .ldB _ => ⟨0xF0FF, 0xF033⟩
  | .ldMemVx _ => ⟨0xF0FF, 0xF055⟩
  | .ldVxMem _ => ⟨0xF0FF, 0xF065⟩

/-- The word selects the row (R75). -/
def TableRow.selects (r : TableRow) (w : Word) : Prop := w &&& r.mask = r.value

/-- The sprite of `rows`, drawn from column `x0` and row `y0`, covers the pixel with a set bit: for some sprite row `r` and
column `c`, the pixel is `((y0 + r) mod 32, (x0 + c) mod 64)` and bit `7 - c` of the row's byte is 1 (spec/44_display.md
rule R192, as its pseudocode reads). -/
def Covers (x0 y0 : Nat) (rows : List Byte) (row : Fin 32) (col : Fin 64) : Prop :=
  ∃ r c b, rows[r]? = some b ∧ c < 8 ∧ b.getLsbD (7 - c) = true ∧ row.val = (y0 + r) % 32 ∧ col.val = (x0 + c) % 64

end Sys2Proof.Machine
end

