-- ==== Sys2Proof/Certificates/Slice0/Obligations.lean ====
section
/-! DEFINITION. What is to be proved about the engine, from the rules of spec/. A docstring names the rules, and says so
where a clause rests on one of the spec's own decisions (92_eei_decisions.md) or on the model's (notes/assumptions). -/

open Sys2Proof Sys2Proof.Machine

/-! Encoding -/

/-- R71: the six fields of a word whose first byte is `hi` and second byte `lo`. -/
def Obligations.FieldsOfTheWord : Prop :=
  ∀ hi lo : Byte,
    (opField (bigEndian hi lo)).toNat = hi.toNat / 16 ∧ (xField (bigEndian hi lo)).val = hi.toNat % 16 ∧
    (yField (bigEndian hi lo)).val = lo.toNat / 16 ∧ (nField (bigEndian hi lo)).val = lo.toNat % 16 ∧
    nnField (bigEndian hi lo) = lo ∧ (nnnField (bigEndian hi lo)).toNat = hi.toNat % 16 * 256 + lo.toNat

/-- Every well-formed instruction is what the decoder reads from its word, with every operand at every value (R72, R74,
R75). -/
def Obligations.DecodeOfEncode : Prop :=
  ∀ i : Instr, i.wellFormed = true → decode (encode i) = .ok i

/-- A decoded word is the word of its instruction, which is well-formed: no bit of a word is dropped, and no word has two
instructions (R74). The fault record's word rests on this (log entry 8). -/
def Obligations.EncodeOfDecode : Prop :=
  ∀ (w : Word) (i : Instr), decode w = .ok i → encode i = w ∧ i.wellFormed = true

/-- The decoder, which dispatches by class, agrees with the masks of the opcode map: a word decodes exactly if a row selects
it, its instruction's row selects it, and any other row that does is SYS's, where the whole-word row wins (R75; D17, D35). -/
def Obligations.DecodeFollowsTheOpcodeMap : Prop :=
  ∀ w : Word,
    ((∃ j, (rowOf j).selects w) → ∃ i, decode w = .ok i) ∧
    ∀ i, decode w = .ok i → (rowOf i).selects w ∧
      ∀ j, (rowOf j).selects w → rowOf j = rowOf i ∨ ((rowOf i).mask = 0xFFFF ∧ ∃ nnn, j = .sys nnn)

/-- The Unknown words are exactly those of R76 (the spec's decision D17: selectors are matched exactly). -/
def Obligations.UnknownWordsExactly : Prop :=
  ∀ w : Word, (∃ e, decode w = .error e) ↔
    (w.toNat / 4096 = 5 ∧ w.toNat % 16 ≠ 0) ∨
    (w.toNat / 4096 = 8 ∧ (8 ≤ w.toNat % 16 ∧ w.toNat % 16 ≤ 13 ∨ w.toNat % 16 = 15)) ∨
    (w.toNat / 4096 = 9 ∧ w.toNat % 16 ≠ 0) ∨
    (w.toNat / 4096 = 14 ∧ w.toNat % 256 ≠ 0x9E ∧ w.toNat % 256 ≠ 0xA1) ∨
    (w.toNat / 4096 = 15 ∧ w.toNat % 256 ∉ [0x07, 0x0A, 0x15, 0x18, 0x1E, 0x29, 0x33, 0x55, 0x65])

/-- A word of each family decodes to the instruction it stands for (R75, bit patterns written out from it). -/
def Obligations.SampleWordsDecode : Prop :=
  decode 0b0000000011100000 = .ok .cls ∧ decode 0b0000000011101110 = .ok .ret ∧
  decode 0b0010001100000000 = .ok (.call 0x300) ∧ decode 0b0011101001000010 = .ok (.seImm 0xA 0x42) ∧
  decode 0b1000000100100101 = .ok (.subReg 1 2) ∧ decode 0b1010001011110000 = .ok (.ldI 0x2F0) ∧
  decode 0b1101101111000101 = .ok (.drw 0xB 0xC 5) ∧ decode 0b1110010110011110 = .ok (.skp 5) ∧
  decode 0b1111001100001010 = .ok (.ldVxK 3) ∧ decode 0b1111001001010101 = .ok (.ldMemVx 2)

/-! The step -/

/-- R55: fetch checks both addresses and combines the two bytes at pc big-endian, at an odd pc too; where one is outside
memory it fails with the lowest failing address. -/
def Obligations.FetchIsBigEndianAndChecked : Prop :=
  ∀ s : State,
    (s.pc.toNat ≤ 4094 → ∃ w, s.fetch = .ok w ∧
      w.toNat = (s.byteAt s.pc.toNat).toNat * 256 + (s.byteAt (s.pc.toNat + 1)).toNat) ∧
    (4094 < s.pc.toNat → s.fetch = .error (max s.pc.toNat 4096))

/-- A step at a pc above 4094 takes MemoryOutOfRange with the lowest failing address and no word, and does nothing else (R92,
R243, R244; log entries 1, 3 and 7 for how the model holds a fault, a report and that a step has happened). -/
def Obligations.FetchFault : Prop :=
  ∀ s : State, s.fault = none → 4094 < s.pc.toNat →
    ∃ t, step s = .next t ∧ StepTookFault ⟨.memoryOutOfRange, s.pc, none, some (max s.pc.toNat 4096)⟩ s t

/-- A step of a state about to run `i` is `exec` of `i` there and then the end of the step: phase 5 where no fault was
taken, and nothing where one was (R103), but that no load may come after it (R274; log entry 7). The end of the step changes
only the timers, the outputs and that, so what a statement says of `exec` it says of the step's other parts. -/
def Obligations.StepRunsTheDecodedInstruction : Prop :=
  ∀ (s : State) (i : Instr), AboutToRun s i →
    ∃ t, exec i s = .next t ∧ step s = .next (endStep s t) ∧
      (t.fault = none → endStep s t = (t.tickTimers s.st).closeLoader) ∧
      (t.fault ≠ none → endStep s t = t.closeLoader) ∧ KeepsAllBut [.dt, .st, .events, .loadable] t (endStep s t)

/-- R248: a step of an Unknown or SYS word reports it with its address, goes on at `pc + 2`, counts the timers down and
leaves everything else, FAULT and the run mode too. The sound-stop signal follows where ST was 1 (R100; the spec's decision
D22); outputs and `loadable` are the model's fields (log entries 3 and 7). -/
def Obligations.UnknownAndSysWordsAreReportedNoOps : Prop :=
  ∀ s : State, s.fault = none → s.pc.toNat ≤ 4094 →
    ((∃ e, decode s.wordAtPc = .error e) ∨ ∃ nnn, decode s.wordAtPc = .ok (.sys nnn)) →
    ∃ t, step s = .next t ∧ t.pc = s.pc + 2 ∧ t.dt.toNat = s.dt.toNat - 1 ∧ t.st.toNat = s.st.toNat - 1 ∧
      t.events = (if s.st = 1 then [.soundStop] else []) ++ .report (.unknown s.wordAtPc s.pc) :: s.events ∧
      t.runMode = s.runMode ∧ KeepsAllBut [.pc, .dt, .st, .events, .loadable] s t

/-- A step in Halted changes nothing and emits nothing (R91; the spec's decision D15). -/
def Obligations.HaltedStepChangesNothing : Prop :=
  ∀ s : State, s.runMode = .halted → step s = .next s

/-- Every step answers a next state: no run is cut short by a fault or a refusal of the interface (R244, R246; log entry 1). -/
def Obligations.StepAlwaysAnswersNext : Prop := ∀ s : State, ∃ t, step s = .next t

/-- R99: both timers count down once, saturating at zero, in every step that takes no fault, whatever the instruction, from
the values the instruction left; a step that takes one leaves them. -/
def Obligations.TimersCountDownOncePerCompletedStep : Prop :=
  ∀ (s t : State), s.fault = none → step s = .next t →
    (t.fault ≠ none → t.dt = s.dt ∧ t.st = s.st) ∧
    (t.fault = none →
      ((∀ x, decode s.wordAtPc ≠ .ok (.ldDTVx x)) → t.dt.toNat = s.dt.toNat - 1) ∧
      ((∀ x, decode s.wordAtPc ≠ .ok (.ldSTVx x)) → t.st.toNat = s.st.toNat - 1) ∧
      (∀ x, decode s.wordAtPc = .ok (.ldDTVx x) → t.dt.toNat = (s.getV x).toNat - 1) ∧
      (∀ x, decode s.wordAtPc = .ok (.ldSTVx x) → t.st.toNat = (s.getV x).toNat - 1))

/-- The sound-stop signal is the latest output of a step exactly when ST is 0 at its end and was not 0 at its start or after
the execution, that of an Unknown word too (R100; the spec's decision D22). -/
def Obligations.SoundStopExactlyAtZero : Prop :=
  ∀ s m : State, ExecutionLeaves s m → m.fault = none →
    ∃ t, step s = .next t ∧
      (t.st = 0 ∧ (s.st ≠ 0 ∨ m.st ≠ 0) → t.events = .soundStop :: m.events) ∧
      (¬(t.st = 0 ∧ (s.st ≠ 0 ∨ m.st ≠ 0)) → t.events = m.events)

/-- A step emits at most one report and at most one sound-stop signal, a fault report alone (R90, R261; the outputs are the
model's field `events`, log entry 3). -/
def Obligations.OutputsOfOneStep : Prop :=
  ∀ s t : State, step s = .next t →
    ∃ new, t.events = new ++ s.events ∧
      (new = [] ∨ new = [.soundStop] ∨ (∃ r, new = [.report (.fault r)] ∧ t.fault = some r) ∨
        (∃ w, new = [.report (.unknown w s.pc)]) ∨ ∃ w, new = [.soundStop, .report (.unknown w s.pc)])

/-- Reports are outputs: what was emitted before changes nothing of a step and nothing of what it emits (R261). -/
def Obligations.OutputsAreNeverRead : Prop :=
  ∀ (s : State) (before : List Event),
    ∃ t u new, step s = .next t ∧ step { s with events := before } = .next u ∧
      t.events = new ++ s.events ∧ u = { t with events := new ++ before }

/-! Invariants and whole-machine rules -/

/-- The invariant holds at reset (R41; `events` and `draws` at the model's values, log entries 2 and 3). -/
def Obligations.ResetMeetsInv : Prop := StateInv State.reset

/-- Every step keeps the invariant: the memory's canonical form, the bound of the stack and its return addresses, the key
wait at its FX0A, the fault record at its instruction, the loader open just after reset only (R30, R32, R36, R50, R243, R252,
R274). -/
def Obligations.StepKeepsInv : Prop := ∀ s t : State, StateInv s → step s = .next t → StateInv t

/-- Every host operation that is not refused keeps the invariant (R217, R270, R274). -/
def Obligations.HostOperationsKeepInv : Prop :=
  ∀ s t : State, StateInv s →
    StateInv (hostReset s) ∧
    (∀ k down, deliverKey k down s = .ok t → StateInv t) ∧
    (∀ font image, loadImage font image s = .ok t → StateInv t)

/-- Faults are precise: a step that ends Halted from a state that was not took one fault, whose record names the address it
started at; nothing else changed, and the record is what was reported (R243 to R245; the spec's decision D14). -/
def Obligations.FaultsArePrecise : Prop :=
  ∀ (s t : State) (r : FaultRecord), s.fault = none → step s = .next t → t.fault = some r →
    r.pc = s.pc ∧ r.fits s.pc ∧ StepTookFault r s t

/-- A fault's word is the word fetched, or none for a fetch fault (R243). -/
def Obligations.FaultRecordsTheFetchedWord : Prop :=
  ∀ (s t : State) (r : FaultRecord), s.fault = none → step s = .next t → t.fault = some r →
    (s.pc.toNat ≤ 4094 → r.word = some s.wordAtPc) ∧ (4094 < s.pc.toNat → r.word = none)

/-- The run mode changes in one step only as R252 says: a key wait is entered by FX0A, left by FX0A after a press, never
into Halted; Halted is never left by a step. -/
def Obligations.RunModeTransitions : Prop :=
  ∀ s t : State, StateInv s → step s = .next t →
    (s.runMode = .halted → t.runMode = .halted) ∧
    (s.runMode = .awaitingKey → t.runMode = if s.kr then .running else .awaitingKey) ∧
    (s.runMode = .running → t.runMode = .awaitingKey → ∃ x, decode s.wordAtPc = .ok (.ldVxK x))

/-- Which instructions may write which part of the state, for all of them: the stack CALL and RET, memory FX33 and FX55, the
framebuffer 00E0 and DXYN, I ANNN, FX1E and FX29, the timers FX15 and FX18, the wait FX0A; the keys and LK no instruction (R31, R33, R34, R35, R36, R51).
The clause on `draws`, which CXNN alone advances, is about the model's own field (log entry 2). -/
def Obligations.WhoWritesWhat : Prop :=
  ∀ (i : Instr) (s t : State), exec i s = .next t →
    (t.stack ≠ s.stack → i = .ret ∨ ∃ nnn, i = .call nnn) ∧
    (t.mem ≠ s.mem → ∃ x, i = .ldB x ∨ i = .ldMemVx x) ∧
    (t.fb ≠ s.fb → i = .cls ∨ ∃ x y n, i = .drw x y n) ∧
    (t.i ≠ s.i → (∃ nnn, i = .ldI nnn) ∨ ∃ x, i = .addI x ∨ i = .ldF x) ∧
    (t.dt ≠ s.dt → ∃ x, i = .ldDTVx x) ∧ (t.st ≠ s.st → ∃ x, i = .ldSTVx x) ∧
    ((t.aw ≠ s.aw ∨ t.kr ≠ s.kr) → ∃ x, i = .ldVxK x) ∧
    (t.draws ≠ s.draws → ∃ x nn, i = .rnd x nn) ∧ t.keys = s.keys ∧ t.lk = s.lk

/-- No instruction writes a register outside the writes column of R23. -/
def Obligations.OnlyListedRegistersAreWritten : Prop :=
  ∀ (i : Instr) (s t : State), exec i s = .next t → ∀ r, t.getV r ≠ s.getV r → mayWriteReg i r

/-- Only EX9E and EXA1 read the keys, and no instruction reads ST: with other keys and another ST every other instruction
does the same (R34, R35). -/
def Obligations.KeysAndSoundTimerAreNotRead : Prop :=
  ∀ (i : Instr) (s t : State) (keys : Vector Bool 16) (b : Byte),
    (∀ x, i ≠ .skp x ∧ i ≠ .sknp x ∧ i ≠ .ldSTVx x) → exec i s = .next t →
    exec i { s with keys := keys, st := b } = .next { t with keys := keys, st := b }

/-! Control flow -/

/-- 0NNN SYS: reports its word and address and goes on at `pc + 2`; nothing else (R111). -/
def Obligations.SysReportsAndGoesOn : Prop :=
  ∀ (nnn : Addr12) (s : State), ∃ t, exec (.sys nnn) s = .next t ∧ t.pc = s.pc + 2 ∧
    t.events = .report (.unknown (BitVec.ofNat 16 nnn.toNat) s.pc) :: s.events ∧ KeepsAllBut [.pc, .events] s t

/-- 1NNN JP: pc becomes NNN, whatever it is, and nothing else changes; its word is 0x1000 + NNN; after a jump to 0xFFF the
fetch fails (R113). -/
def Obligations.JumpSetsPc : Prop :=
  ∀ (nnn : Addr12) (s : State), ∃ t, exec (.jp nnn) s = .next t ∧ t.pc.toNat = nnn.toNat ∧ KeepsAllBut [.pc] s t ∧
    (encode (.jp nnn)).toNat = 0x1000 + nnn.toNat ∧ (nnn = 0xFFF → t.fetch = .error 4096)

/-- BNNN JP V0: pc becomes the exact sum NNN + V0, with no wrap and no fault (R119; the spec's decision D13). -/
def Obligations.IndexedJumpIsExact : Prop :=
  ∀ (nnn : Addr12) (s : State), ∃ t, exec (.jpV0 nnn) s = .next t ∧
    t.pc.toNat = nnn.toNat + (s.getV 0).toNat ∧ KeepsAllBut [.pc] s t

/-- 2NNN CALL with room: pushes `pc + 2` on top and jumps (R114; the spec's decisions D2 and D23). -/
def Obligations.CallPushesReturnAddress : Prop :=
  ∀ (nnn : Addr12) (s : State), s.stack.length < 16 → ∃ t, exec (.call nnn) s = .next t ∧
    t.stack = s.stack ++ [s.pc + 2] ∧ t.pc.toNat = nnn.toNat ∧ KeepsAllBut [.pc, .stack] s t

/-- 00EE RET with an entry: pops the top into pc, with no further advance (R112; the spec's decision D2). -/
def Obligations.RetPopsIntoPc : Prop :=
  ∀ (s : State) (rest : List Word) (a : Word), s.stack = rest ++ [a] → ∃ t, exec .ret s = .next t ∧
    t.pc = a ∧ t.stack = rest ∧ KeepsAllBut [.pc, .stack] s t

/-- CALL with 16 entries and RET with none take StackOverflow and StackUnderflow, with no info, and do nothing else: pc and
the stack stay (R112, R114, R244; the spec's decisions D14 and D23). -/
def Obligations.StackFaults : Prop :=
  ∀ (nnn : Addr12) (s : State),
    (s.stack.length = 16 → ∃ t, exec (.call nnn) s = .next t ∧
      TookFault ⟨.stackOverflow, s.pc, some (encode (.call nnn)), none⟩ s t) ∧
    (s.stack = [] → ∃ t, exec .ret s = .next t ∧ TookFault ⟨.stackUnderflow, s.pc, some 0x00EE, none⟩ s t)

/-- The round trip, over a whole run of steps with keys delivered between them: after a CALL, whatever runs until a RET finds
the stack at the depth the CALL left, having never been shallower, that RET goes to the address after the CALL and leaves the
stack as before it (R120). A run holds no reset and no load, after which there is no CALL to return from (log entry 12). -/
def Obligations.CallReturnRoundTrip : Prop :=
  ∀ (nnn : Addr12) (s t u : State), AboutToRun s (.call nnn) → s.stack.length < 16 → step s = .next t →
    RunAbove (s.stack.length + 1) t u → AboutToRun u .ret → u.stack.length = s.stack.length + 1 →
    ∃ v, step u = .next v ∧ v.pc = s.pc + 2 ∧ v.stack = s.stack

/-- The four register skips: pc + 4 where the condition holds, else pc + 2, and nothing else (R115 to R118; that a skip is 4
is the spec's decision D3). -/
def Obligations.RegisterSkips : Prop :=
  ∀ (x y : Reg) (nn : Byte) (s : State),
    (∃ t, exec (.seImm x nn) s = .next t ∧ t.pc = (if s.getV x = nn then s.pc + 4 else s.pc + 2) ∧
      KeepsAllBut [.pc] s t) ∧
    (∃ t, exec (.sneImm x nn) s = .next t ∧ t.pc = (if s.getV x = nn then s.pc + 2 else s.pc + 4) ∧
      KeepsAllBut [.pc] s t) ∧
    (∃ t, exec (.seReg x y) s = .next t ∧ t.pc = (if s.getV x = s.getV y then s.pc + 4 else s.pc + 2) ∧
      KeepsAllBut [.pc] s t) ∧
    (∃ t, exec (.sneReg x y) s = .next t ∧ t.pc = (if s.getV x = s.getV y then s.pc + 2 else s.pc + 4) ∧
      KeepsAllBut [.pc] s t)

/-! The ALU -/

/-- 6XNN, 7XNN and 8XY0: NN, the sum mod 256 and Vy, with no flag written; their words (R141, R142, R143). -/
def Obligations.LoadsAndImmediateAdd : Prop :=
  ∀ (x y : Reg) (nn : Byte) (s : State),
    (∃ t, exec (.ldImm x nn) s = .next t ∧ WroteReg x nn.toNat s t) ∧
    (∃ t, exec (.addImm x nn) s = .next t ∧ WroteReg x (((s.getV x).toNat + nn.toNat) % 256) s t) ∧
    (∃ t, exec (.ldReg x y) s = .next t ∧ WroteReg x (s.getV y).toNat s t) ∧
    (encode (.ldImm x nn)).toNat = 0x6000 + 256 * x.val + nn.toNat ∧
    (encode (.addImm x nn)).toNat = 0x7000 + 256 * x.val + nn.toNat ∧
    (encode (.ldReg x y)).toNat = 0x8000 + 256 * x.val + 16 * y.val

/-- 8XY1, 8XY2, 8XY3: the bitwise result, and VF is not written unless x = F (R144 to R146; the spec's decision D7). -/
def Obligations.LogicOperations : Prop :=
  ∀ (x y : Reg) (s : State),
    (∃ t, exec (.orReg x y) s = .next t ∧ WroteReg x ((s.getV x).toNat ||| (s.getV y).toNat) s t) ∧
    (∃ t, exec (.andReg x y) s = .next t ∧ WroteReg x ((s.getV x).toNat &&& (s.getV y).toNat) s t) ∧
    (∃ t, exec (.xorReg x y) s = .next t ∧ WroteReg x ((s.getV x).toNat ^^^ (s.getV y).toNat) s t)

/-- 8XY4, 8XY5, 8XY7 in exact arithmetic: the result mod 256, then VF = carry or not-borrow, so with x = F the flag stays
(R147, R148, R150; the spec's decisions D4 and D5). -/
def Obligations.AddAndSubtractWithFlag : Prop :=
  ∀ (x y : Reg) (s : State),
    (∃ t, exec (.addReg x y) s = .next t ∧
      WroteRegAndFlag x (((s.getV x).toNat + (s.getV y).toNat) % 256)
        (if 255 < (s.getV x).toNat + (s.getV y).toNat then 1 else 0) s t) ∧
    (∃ t, exec (.subReg x y) s = .next t ∧
      WroteRegAndFlag x ((256 + (s.getV x).toNat - (s.getV y).toNat) % 256)
        (if (s.getV y).toNat ≤ (s.getV x).toNat then 1 else 0) s t) ∧
    (∃ t, exec (.subnReg x y) s = .next t ∧
      WroteRegAndFlag x ((256 + (s.getV y).toNat - (s.getV x).toNat) % 256)
        (if (s.getV x).toNat ≤ (s.getV y).toNat then 1 else 0) s t)

/-- 8XY6 and 8XYE: Vx shifted by one, then VF = the bit shifted out; Vy is not read (R149, R151; the spec's decisions D4 and
D6). -/
def Obligations.ShiftsWithFlag : Prop :=
  ∀ (x y : Reg) (s : State),
    (∃ t, exec (.shrReg x y) s = .next t ∧
      WroteRegAndFlag x ((s.getV x).toNat / 2) ((s.getV x).toNat % 2) s t) ∧
    (∃ t, exec (.shlReg x y) s = .next t ∧
      WroteRegAndFlag x (2 * (s.getV x).toNat % 256) ((s.getV x).toNat / 128) s t)

/-- CXNN: the drawn byte AND NN, and the next draw is another byte. The byte is a free value: nothing is known of it (R156;
the spec's decision D24, log entry 2). -/
def Obligations.RandomByteIsMasked : Prop :=
  ∀ (x : Reg) (nn : Byte) (s : State), ∃ t, exec (.rnd x nn) s = .next t ∧
    t.getV x = Config.randomByte s.draws &&& nn ∧ t.draws = s.draws + 1 ∧ t.pc = s.pc + 2 ∧
    KeepsRegsBut [x] s t ∧ KeepsAllBut [.regs, .pc, .draws] s t

/-! The index register and memory -/

/-- ANNN: I becomes NNN and pc goes on; its word is 0xA000 + NNN (R171). -/
def Obligations.LoadIndex : Prop :=
  ∀ (nnn : Addr12) (s : State), ∃ t, exec (.ldI nnn) s = .next t ∧ t.i.toNat = nnn.toNat ∧ t.pc = s.pc + 2 ∧
    KeepsAllBut [.index, .pc] s t ∧ (encode (.ldI nnn)).toNat = 0xA000 + nnn.toNat

/-- FX1E: I + Vx mod 65536, no flag, no range fault. FX29: 5 × Vx, unmasked (R172, R173; the spec's decisions D9, D10, D13). -/
def Obligations.IndexArithmetic : Prop :=
  ∀ (x : Reg) (s : State),
    (∃ t, exec (.addI x) s = .next t ∧ t.i.toNat = (s.i.toNat + (s.getV x).toNat) % 65536 ∧ t.pc = s.pc + 2 ∧
      KeepsAllBut [.index, .pc] s t) ∧
    (∃ t, exec (.ldF x) s = .next t ∧ t.i.toNat = 5 * (s.getV x).toNat ∧ t.pc = s.pc + 2 ∧
      KeepsAllBut [.index, .pc] s t)

/-- FX33 in range: the three decimal digits at I, I + 1, I + 2, and every other byte and part as before (R174). In range is
I + 2 ≤ 4095, so I = 4093 stores, as R174's pseudocode and Exceptions, R170 and vector MEM-12 have it; R174's corner case says
that it faults (log entry 13). -/
def Obligations.DecimalStore : Prop :=
  ∀ (x : Reg) (s : State), s.mem.wf = true → s.indexBase + 3 ≤ 4096 →
    ∃ t, exec (.ldB x) s = .next t ∧
      (t.byteAt s.indexBase).toNat = (s.getV x).toNat / 100 ∧
      (t.byteAt (s.indexBase + 1)).toNat = (s.getV x).toNat / 10 % 10 ∧
      (t.byteAt (s.indexBase + 2)).toNat = (s.getV x).toNat % 10 ∧
      KeepsBytesOutside s.indexBase 3 s t ∧ t.pc = s.pc + 2 ∧ KeepsAllBut [.memory, .pc] s t

/-- FX55 in range: V0..Vx at I..I + x, I unchanged, and every other byte and part as before (R175; the spec's decision D8). -/
def Obligations.BlockStore : Prop :=
  ∀ (x : Reg) (s : State), s.mem.wf = true → s.indexBase + (x.val + 1) ≤ 4096 →
    ∃ t, exec (.ldMemVx x) s = .next t ∧
      (∀ k : Reg, k ≤ x → t.byteAt (s.indexBase + k.val) = s.getV k) ∧
      KeepsBytesOutside s.indexBase (x.val + 1) s t ∧ t.pc = s.pc + 2 ∧ KeepsAllBut [.memory, .pc] s t

/-- FX65 in range: V0..Vx from I..I + x, I and the other registers unchanged (R176; the spec's decision D8). -/
def Obligations.BlockLoad : Prop :=
  ∀ (x : Reg) (s : State), s.indexBase + (x.val + 1) ≤ 4096 →
    ∃ t, exec (.ldVxMem x) s = .next t ∧
      (∀ k : Reg, k ≤ x → t.getV k = s.byteAt (s.indexBase + k.val)) ∧
      (∀ k : Reg, x < k → t.getV k = s.getV k) ∧ t.pc = s.pc + 2 ∧ KeepsAllBut [.regs, .pc] s t

/-- A block stored and loaded again, with memory and I untouched between, brings V0..Vx back (R61, R175, R176). -/
def Obligations.BlockStoreThenLoad : Prop :=
  ∀ (x : Reg) (s t u : State), s.mem.wf = true → s.indexBase + (x.val + 1) ≤ 4096 → exec (.ldMemVx x) s = .next t →
    u.mem = t.mem → u.i = t.i → ∃ v, exec (.ldVxMem x) u = .next v ∧ ∀ k : Reg, k ≤ x → v.getV k = s.getV k

/-- A stored byte pair is what a later fetch at its address reads: self-modifying code takes effect at once (R63, R279; the
spec's decision D26). -/
def Obligations.FetchSeesStoredBytes : Prop :=
  ∀ (x k j : Reg) (s t u : State), s.mem.wf = true → s.indexBase + (x.val + 1) ≤ 4096 →
    exec (.ldMemVx x) s = .next t → j.val = k.val + 1 → j ≤ x → u.mem = t.mem →
    u.pc.toNat = s.indexBase + k.val → u.fetch = .ok (bigEndian (s.getV k) (s.getV j))

/-- FX33, FX55, FX65 and DXYN whose range leaves memory take MemoryOutOfRange with the lowest failing address, and do nothing
else: no byte, register or pixel is written (R54, R170, R174 to R176, R192; the spec's decision D14). FX33 faults from I = 4094 up (log
entry 13). -/
def Obligations.RangeFaults : Prop :=
  ∀ (x y : Reg) (n : Fin 16) (s : State),
    (4096 < s.indexBase + 3 → ∃ t, exec (.ldB x) s = .next t ∧
      TookFault ⟨.memoryOutOfRange, s.pc, some (encode (.ldB x)), some (max s.indexBase 4096)⟩ s t) ∧
    (4096 < s.indexBase + (x.val + 1) → ∃ t, exec (.ldMemVx x) s = .next t ∧
      TookFault ⟨.memoryOutOfRange, s.pc, some (encode (.ldMemVx x)), some (max s.indexBase 4096)⟩ s t) ∧
    (4096 < s.indexBase + (x.val + 1) → ∃ t, exec (.ldVxMem x) s = .next t ∧
      TookFault ⟨.memoryOutOfRange, s.pc, some (encode (.ldVxMem x)), some (max s.indexBase 4096)⟩ s t) ∧
    (0 < n.val → 4096 < s.indexBase + n.val → ∃ t, exec (.drw x y n) s = .next t ∧
      TookFault ⟨.memoryOutOfRange, s.pc, some (encode (.drw x y n)), some (max s.indexBase 4096)⟩ s t)

/-! The framebuffer -/

/-- 00E0: every pixel off, VF not written (R191). -/
def Obligations.ClearScreen : Prop :=
  ∀ s : State, ∃ t, exec .cls s = .next t ∧ (∀ row col, pixelAt t.fb row col = false) ∧ t.pc = s.pc + 2 ∧
    KeepsAllBut [.fb, .pc] s t

/-- DXYN in range, or with n = 0 wherever I is: the pixels the wrapped sprite covers are toggled and no other, VF is 1 exactly
if one of them was on, and nothing else changes; the coordinates are read before VF is written (R192 to R196; the spec's
decisions D4, D11, D12). -/
def Obligations.DrawTogglesTheCoveredPixels : Prop :=
  ∀ (x y : Reg) (n : Fin 16) (s : State) (x0 y0 : Nat) (rows : List Byte),
    n.val = 0 ∨ s.indexBase + n.val ≤ 4096 → x0 = (s.getV x).toNat % 64 → y0 = (s.getV y).toNat % 32 →
    rows = (List.range n.val).map (fun r => s.byteAt (s.indexBase + r)) →
    ∃ t, exec (.drw x y n) s = .next t ∧
      (∀ row col, Covers x0 y0 rows row col → pixelAt t.fb row col = !pixelAt s.fb row col) ∧
      (∀ row col, ¬Covers x0 y0 rows row col → pixelAt t.fb row col = pixelAt s.fb row col) ∧
      ((∃ row col, Covers x0 y0 rows row col ∧ pixelAt s.fb row col = true) → t.getV flagReg = 1) ∧
      ((¬∃ row col, Covers x0 y0 rows row col ∧ pixelAt s.fb row col = true) → t.getV flagReg = 0) ∧
      KeepsRegsBut [flagReg] s t ∧ t.pc = s.pc + 2 ∧ KeepsAllBut [.regs, .fb, .pc] s t

/-- The same sprite drawn twice brings the framebuffer back, and the second draw reports a collision exactly if the sprite
covers a pixel that was off before the first; x and y are not F, so the first draw leaves the coordinates (R197 as R192's
pseudocode has it; log entry 10 says where R197's own sentence is wider). -/
def Obligations.DrawTwiceRestores : Prop :=
  ∀ (x y : Reg) (n : Fin 16) (s : State) (x0 y0 : Nat) (rows : List Byte),
    x ≠ flagReg → y ≠ flagReg → n.val = 0 ∨ s.indexBase + n.val ≤ 4096 →
    x0 = (s.getV x).toNat % 64 → y0 = (s.getV y).toNat % 32 →
    rows = (List.range n.val).map (fun r => s.byteAt (s.indexBase + r)) →
    ∃ t u, exec (.drw x y n) s = .next t ∧ exec (.drw x y n) t = .next u ∧ u.fb = s.fb ∧
      ((∃ row col, Covers x0 y0 rows row col ∧ pixelAt s.fb row col = false) → u.getV flagReg = 1) ∧
      ((¬∃ row col, Covers x0 y0 rows row col ∧ pixelAt s.fb row col = false) → u.getV flagReg = 0)

/-- R197's sentence as it is worded, for every framebuffer: the second draw of a sprite with a set bit reports a collision.
EXPECTED TO FAIL: where every pixel the sprite covers was on, the first draw turns them off and the second turns them on, and
R192's pseudocode gives VF = 0 (log entry 10). -/
def Obligations.SecondDrawAlwaysCollides : Prop :=
  ∀ (x y : Reg) (n : Fin 16) (s t u : State), x ≠ flagReg → y ≠ flagReg → s.indexBase + n.val ≤ 4096 →
    (∃ r, r < n.val ∧ s.byteAt (s.indexBase + r) ≠ 0) →
    exec (.drw x y n) s = .next t → exec (.drw x y n) t = .next u → u.getV flagReg = 1

/-! Timers and keys -/

/-- EX9E and EXA1 with Vx a key's number: skip if it is, or is not, pressed (R211, R212; a skip of 4 is the spec's D3). -/
def Obligations.KeySkips : Prop :=
  ∀ (x k : Reg) (s : State), (s.getV x).toNat = k.val →
    (∃ t, exec (.skp x) s = .next t ∧ t.pc = (if s.keys[k] = true then s.pc + 4 else s.pc + 2) ∧
      KeepsAllBut [.pc] s t) ∧
    (∃ t, exec (.sknp x) s = .next t ∧ t.pc = (if s.keys[k] = true then s.pc + 2 else s.pc + 4) ∧
      KeepsAllBut [.pc] s t)

/-- EX9E and EXA1 with Vx above 15 take InvalidKey with that value and do nothing else (R211, R212, R241; the spec's decision
D18). -/
def Obligations.InvalidKeyFaults : Prop :=
  ∀ (x : Reg) (s : State), 15 < (s.getV x).toNat →
    (∃ t, exec (.skp x) s = .next t ∧
      TookFault ⟨.invalidKey, s.pc, some (encode (.skp x)), some (s.getV x).toNat⟩ s t) ∧
    (∃ t, exec (.sknp x) s = .next t ∧
      TookFault ⟨.invalidKey, s.pc, some (encode (.sknp x)), some (s.getV x).toNat⟩ s t)

/-- FX07, FX15, FX18: Vx <- DT as it is, DT <- Vx, ST <- Vx, before the step's own decrement; their words (R213, R215, R216). -/
def Obligations.TimerTransfers : Prop :=
  ∀ (x : Reg) (s : State),
    (∃ t, exec (.ldVxDT x) s = .next t ∧ WroteReg x s.dt.toNat s t) ∧
    (∃ t, exec (.ldDTVx x) s = .next t ∧ t.dt = s.getV x ∧ t.pc = s.pc + 2 ∧ KeepsAllBut [.dt, .pc] s t) ∧
    (∃ t, exec (.ldSTVx x) s = .next t ∧ t.st = s.getV x ∧ t.pc = s.pc + 2 ∧ KeepsAllBut [.st, .pc] s t) ∧
    (encode (.ldVxDT x)).toNat = 0xF007 + 256 * x.val ∧ (encode (.ldDTVx x)).toNat = 0xF015 + 256 * x.val ∧
    (encode (.ldSTVx x)).toNat = 0xF018 + 256 * x.val

/-- FX0A: the first execution starts the wait and stays at pc; one after a press writes the latched key to Vx, ends the wait
and goes on; any other stays as it is (R214; the spec's decision D20). -/
def Obligations.KeyWaitProtocol : Prop :=
  ∀ (x : Reg) (s : State),
    (s.aw = false → ∃ t, exec (.ldVxK x) s = .next t ∧ t.aw = true ∧ t.kr = false ∧ KeepsAllBut [.aw, .kr] s t) ∧
    (s.aw = true → s.kr = true → ∃ t, exec (.ldVxK x) s = .next t ∧ (t.getV x).toNat = s.lk.val ∧
      KeepsRegsBut [x] s t ∧ t.aw = false ∧ t.kr = false ∧ t.pc = s.pc + 2 ∧ KeepsAllBut [.regs, .pc, .aw, .kr] s t) ∧
    (s.aw = true → s.kr = false → exec (.ldVxK x) s = .next s)

/-- A wait ends with the step after a press: from a waiting state, the press of key k and one step put k into the register of
the FX0A at pc, and the engine is Running at the next instruction (R214, R217, R252, R265; D19, D20). -/
def Obligations.KeyPressEndsTheWait : Prop :=
  ∀ (s : State) (k : Reg), StateInv s → s.runMode = .awaitingKey →
    ∃ x u t, decode s.wordAtPc = .ok (.ldVxK x) ∧ deliverKey k.val true s = .ok u ∧ step u = .next t ∧
      (t.getV x).toNat = k.val ∧ t.pc = s.pc + 2 ∧ t.runMode = .running ∧ t.keys = s.keys

/-! The host's operations -/

/-- Key delivery: a press during a wait is latched and K stays; anything else sets or clears K[k] and no other key; a key
outside 0..15 is refused (R217, R263; the spec's decision D19). -/
def Obligations.KeyDelivery : Prop :=
  ∀ (s : State) (down : Bool),
    (∀ k : Reg, s.aw = true → down = true → ∃ t, deliverKey k.val down s = .ok t ∧ t.kr = true ∧ t.lk = k ∧
      KeepsAllBut [.kr, .lk] s t) ∧
    (∀ k : Reg, s.aw = false ∨ down = false → ∃ t, deliverKey k.val down s = .ok t ∧ t.keys[k] = down ∧
      (∀ j : Reg, j ≠ k → t.keys[j] = s.keys[j]) ∧ KeepsAllBut [.keys] s t) ∧
    (∀ k : Nat, 15 < k → deliverKey k down s = .error .noSuchKey)

/-- R26: all sixteen registers are 0 after reset. -/
def Obligations.ResetClearsTheRegisters : Prop :=
  ∀ (s : State) (r : Reg), State.reset.getV r = 0 ∧ (hostReset s).getV r = 0

/-- Reset puts every part at its value of R41 and emits nothing (R270, R272; the spec's decisions D15 and D28); a load may
come after it (log entry 7), and that the generator goes on is the model's (log entry 6). -/
def Obligations.ResetValues : Prop :=
  ∀ s t : State, t = State.reset ∨ t = hostReset s →
    (∀ r, t.getV r = 0) ∧ t.i = 0 ∧ t.pc.toNat = 512 ∧ t.stack = [] ∧ t.dt = 0 ∧ t.st = 0 ∧ (∀ row col, pixelAt t.fb row col = false) ∧
    (∀ k : Reg, t.keys[k] = false) ∧ t.aw = false ∧ t.kr = false ∧ t.lk = 0 ∧ (∀ a, t.byteAt a = 0) ∧
    t.fault = none ∧ t.runMode = .running ∧ t.loadable = true ∧ (hostReset s).events = s.events ∧ (hostReset s).draws = s.draws

/-- The loader on every state that meets the invariant and may still load (by the invariant: just after reset, keys delivered
since or not): the font at 0..79, the image from 512, 0 elsewhere, no other part changed but that no load may come after it;
a larger image is refused in every state (R274, R275, R277; the spec's decision D27, and the model's field, log entry 7). -/
def Obligations.LoaderPlacesFontAndImage : Prop :=
  ∀ (font : Vector Byte 80) (image : List Byte) (s : State),
    (StateInv s → s.loadable = true → image.length ≤ 3584 → ∃ t, loadImage font image s = .ok t ∧
      (∀ a, a < 80 → t.byteAt a = font.toList.getD a 0) ∧
      (∀ a, 80 ≤ a → a < 512 → t.byteAt a = 0) ∧
      (∀ a, 512 ≤ a → t.byteAt a = image.getD (a - 512) 0) ∧ t.loadable = false ∧
      KeepsAllBut [.memory, .loadable] s t) ∧
    (3584 < image.length → loadImage font image s = .error .imageTooLarge)

/-- A load comes once and before the first step: after a step of any state that meets the invariant, and after a load, every
load is refused, until the host's reset; a key delivered before the load does not refuse it (R246, R274; the spec's decision
D27, and the model's field, log entry 7). -/
def Obligations.LoadComesOnceBeforeTheFirstStep : Prop :=
  ∀ (font : Vector Byte 80) (image : List Byte) (s t : State), image.length ≤ 3584 →
    (StateInv s → step s = .next t → loadImage font image t = .error .notJustAfterReset) ∧
    (∀ earlierFont earlier, loadImage earlierFont earlier s = .ok t →
      loadImage font image t = .error .notJustAfterReset) ∧
    (∀ k down, deliverKey k down s = .ok t → t.loadable = s.loadable) ∧ (hostReset s).loadable = true
end

