-- ==== Sys2Proof/Laws/Decode.lean ====
section
/-! SUPPORT. The words the formats build and the fields the decoder reads, as numbers and against each other. -/

namespace Sys2Proof

/-! The words of the three formats, as numbers -/

theorem toNat_wordNNN (op : BitVec 4) (k : Addr12) : (wordNNN op k).toNat = op.toNat * 4096 + k.toNat := by
  have := k.isLt
  simp only [wordNNN, BitVec.toNat_append]
  rw [← Nat.shiftLeft_add_eq_or_of_lt (by omega)]
  simp only [Nat.shiftLeft_eq]

theorem toNat_wordXNN (op : BitVec 4) (x : Reg) (k : Byte) :
    (wordXNN op x k).toNat = op.toNat * 4096 + x.val * 256 + k.toNat := by
  have := k.isLt
  have := x.isLt
  have hx : (regBits x).toNat = x.val := rfl
  simp only [wordXNN, BitVec.toNat_append]
  rw [← Nat.shiftLeft_add_eq_or_of_lt (by omega), ← Nat.shiftLeft_add_eq_or_of_lt (by omega)]
  simp only [Nat.shiftLeft_eq]
  omega

theorem toNat_wordXYN (op : BitVec 4) (x y : Reg) (n : BitVec 4) :
    (wordXYN op x y n).toNat = op.toNat * 4096 + x.val * 256 + y.val * 16 + n.toNat := by
  have := x.isLt
  have := y.isLt
  have := n.isLt
  have hx : (regBits x).toNat = x.val := rfl
  have hy : (regBits y).toNat = y.val := rfl
  simp only [wordXYN, BitVec.toNat_append]
  rw [← Nat.shiftLeft_add_eq_or_of_lt (by omega), ← Nat.shiftLeft_add_eq_or_of_lt (by omega),
    ← Nat.shiftLeft_add_eq_or_of_lt (by omega)]
  simp only [Nat.shiftLeft_eq]
  omega

/-! The fields, as numbers -/

theorem toNat_opField (w : Word) : (opField w).toNat = w.toNat / 4096 := by
  have := w.isLt
  simp only [opField, BitVec.extractLsb'_toNat, Nat.shiftRight_eq_div_pow]
  omega

theorem val_xField (w : Word) : (xField w).val = w.toNat / 256 % 16 := by
  show (w.extractLsb' 8 4).toNat = _
  simp only [BitVec.extractLsb'_toNat, Nat.shiftRight_eq_div_pow]

theorem val_yField (w : Word) : (yField w).val = w.toNat / 16 % 16 := by
  show (w.extractLsb' 4 4).toNat = _
  simp only [BitVec.extractLsb'_toNat, Nat.shiftRight_eq_div_pow]

theorem val_nField (w : Word) : (nField w).val = w.toNat % 16 := by
  show (w.extractLsb' 0 4).toNat = _
  simp [BitVec.extractLsb'_toNat]

theorem toNat_nnField (w : Word) : (nnField w).toNat = w.toNat % 256 := by
  simp [nnField, BitVec.extractLsb'_toNat]

theorem toNat_nnnField (w : Word) : (nnnField w).toNat = w.toNat % 4096 := by
  simp [nnnField, BitVec.extractLsb'_toNat]

theorem toNat_bigEndian (hi lo : Byte) : (bigEndian hi lo).toNat = hi.toNat * 256 + lo.toNat := by
  have := lo.isLt
  simp only [bigEndian, BitVec.toNat_append]
  rw [← Nat.shiftLeft_add_eq_or_of_lt (by omega)]
  simp only [Nat.shiftLeft_eq]

/-! The fields of a built word -/

@[simp] theorem opField_wordNNN (op : BitVec 4) (k : Addr12) : opField (wordNNN op k) = op := by
  have := k.isLt
  apply BitVec.eq_of_toNat_eq
  rw [toNat_opField, toNat_wordNNN]
  omega

@[simp] theorem nnnField_wordNNN (op : BitVec 4) (k : Addr12) : nnnField (wordNNN op k) = k := by
  have := k.isLt
  apply BitVec.eq_of_toNat_eq
  rw [toNat_nnnField, toNat_wordNNN]
  omega

@[simp] theorem opField_wordXNN (op : BitVec 4) (x : Reg) (k : Byte) : opField (wordXNN op x k) = op := by
  have := k.isLt
  have := x.isLt
  apply BitVec.eq_of_toNat_eq
  rw [toNat_opField, toNat_wordXNN]
  omega

@[simp] theorem xField_wordXNN (op : BitVec 4) (x : Reg) (k : Byte) : xField (wordXNN op x k) = x := by
  have := k.isLt
  have := x.isLt
  apply Fin.ext
  rw [val_xField, toNat_wordXNN]
  omega

@[simp] theorem nnField_wordXNN (op : BitVec 4) (x : Reg) (k : Byte) : nnField (wordXNN op x k) = k := by
  have := k.isLt
  apply BitVec.eq_of_toNat_eq
  rw [toNat_nnField, toNat_wordXNN]
  omega

@[simp] theorem opField_wordXYN (op : BitVec 4) (x y : Reg) (n : BitVec 4) : opField (wordXYN op x y n) = op := by
  have := x.isLt
  have := y.isLt
  have := n.isLt
  apply BitVec.eq_of_toNat_eq
  rw [toNat_opField, toNat_wordXYN]
  omega

@[simp] theorem xField_wordXYN (op : BitVec 4) (x y : Reg) (n : BitVec 4) : xField (wordXYN op x y n) = x := by
  have := x.isLt
  have := y.isLt
  have := n.isLt
  apply Fin.ext
  rw [val_xField, toNat_wordXYN]
  omega

@[simp] theorem yField_wordXYN (op : BitVec 4) (x y : Reg) (n : BitVec 4) : yField (wordXYN op x y n) = y := by
  have := x.isLt
  have := y.isLt
  have := n.isLt
  apply Fin.ext
  rw [val_yField, toNat_wordXYN]
  omega

@[simp] theorem nField_wordXYN (op : BitVec 4) (x y : Reg) (n : BitVec 4) :
    nField (wordXYN op x y n) = n.toFin := by
  have := n.isLt
  have hn : n.toFin.val = n.toNat := rfl
  apply Fin.ext
  rw [val_nField, toNat_wordXYN, hn]
  omega

/-! A word is its fields -/

theorem wordNNN_fields (w : Word) : wordNNN (opField w) (nnnField w) = w := by
  have := w.isLt
  apply BitVec.eq_of_toNat_eq
  rw [toNat_wordNNN, toNat_opField, toNat_nnnField]
  omega

theorem wordXNN_fields (w : Word) : wordXNN (opField w) (xField w) (nnField w) = w := by
  have := w.isLt
  apply BitVec.eq_of_toNat_eq
  rw [toNat_wordXNN, toNat_opField, val_xField, toNat_nnField]
  omega

theorem wordXYN_fields (w : Word) : wordXYN (opField w) (xField w) (yField w) (regBits (nField w)) = w := by
  have := w.isLt
  have hn : (regBits (nField w)).toNat = (nField w).val := rfl
  apply BitVec.eq_of_toNat_eq
  rw [toNat_wordXYN, toNat_opField, val_xField, val_yField, hn, val_nField]
  omega

/-- The bytes memory holds for a word are read back as the word (20_memory.md R55). -/
theorem bigEndian_storedBytes (w : Word) : bigEndian (w.extractLsb' 8 8) (w.extractLsb' 0 8) = w := by
  have := w.isLt
  apply BitVec.eq_of_toNat_eq
  rw [toNat_bigEndian]
  simp only [BitVec.extractLsb'_toNat, Nat.shiftRight_eq_div_pow]
  omega

/-! The masks of the opcode map (R75) -/

theorem wordNNN_mask (op : BitVec 4) (k : Addr12) : wordNNN op k &&& 0xF000 = op ++ 0#12 := by
  show (op ++ k) &&& (0xF#4 ++ 0#12) = _
  rw [BitVec.and_append, BitVec.and_zero, show 0xF#4 = BitVec.allOnes 4 from rfl, BitVec.and_allOnes]

theorem wordXNN_mask (op : BitVec 4) (x : Reg) (k : Byte) :
    wordXNN op x k &&& 0xF000 = op ++ 0#12 := by
  show (op ++ regBits x ++ k) &&& (0xF#4 ++ 0#4 ++ 0#8) = _
  rw [BitVec.and_append, BitVec.and_append, BitVec.and_zero, BitVec.and_zero,
    show 0xF#4 = BitVec.allOnes 4 from rfl, BitVec.and_allOnes]
  revert op
  decide

theorem wordXNN_maskX (op : BitVec 4) (x : Reg) (k : Byte) :
    wordXNN op x k &&& 0xF0FF = op ++ 0#4 ++ k := by
  show (op ++ regBits x ++ k) &&& (0xF#4 ++ 0#4 ++ 0xFF#8) = _
  rw [BitVec.and_append, BitVec.and_append, BitVec.and_zero,
    show 0xF#4 = BitVec.allOnes 4 from rfl, BitVec.and_allOnes,
    show 0xFF#8 = BitVec.allOnes 8 from rfl, BitVec.and_allOnes]

theorem wordXYN_mask (op : BitVec 4) (x y : Reg) (n : BitVec 4) :
    wordXYN op x y n &&& 0xF000 = op ++ 0#12 := by
  show (op ++ regBits x ++ regBits y ++ n : BitVec (4 + 4 + 4 + 4)) &&&
    (0xF#4 ++ 0#4 ++ 0#4 ++ 0#4 : BitVec (4 + 4 + 4 + 4)) = _
  rw [BitVec.and_append, BitVec.and_append, BitVec.and_append, BitVec.and_zero, BitVec.and_zero, BitVec.and_zero,
    show 0xF#4 = BitVec.allOnes 4 from rfl, BitVec.and_allOnes]
  revert op
  decide

theorem wordXYN_maskN (op : BitVec 4) (x y : Reg) (n : BitVec 4) :
    wordXYN op x y n &&& 0xF00F = op ++ 0#8 ++ n := by
  show (op ++ regBits x ++ regBits y ++ n : BitVec (4 + 4 + 4 + 4)) &&&
    (0xF#4 ++ 0#4 ++ 0#4 ++ 0xF#4 : BitVec (4 + 4 + 4 + 4)) = _
  rw [BitVec.and_append, BitVec.and_append, BitVec.and_append, BitVec.and_zero, BitVec.and_zero,
    show 0xF#4 = BitVec.allOnes 4 from rfl, BitVec.and_allOnes, BitVec.and_allOnes]
  revert op n
  decide

end Sys2Proof
end

