-- ==== Sys2Proof/Laws/State.lean ====
section
/-! SUPPORT. What each update of the state does to each field: one lemma per field per update, and what the two readers
`getV` and `byteAt` see after each, so that no later proof unfolds a record update. -/

namespace Sys2Proof.Machine

variable (s : State)

/-! `setV` -/

@[simp] theorem setV_v (x : Reg) (b : Byte) : (s.setV x b).v = s.v.set x b := rfl
@[simp] theorem setV_i (x : Reg) (b : Byte) : (s.setV x b).i = s.i := rfl
@[simp] theorem setV_pc (x : Reg) (b : Byte) : (s.setV x b).pc = s.pc := rfl
@[simp] theorem setV_stack (x : Reg) (b : Byte) : (s.setV x b).stack = s.stack := rfl
@[simp] theorem setV_dt (x : Reg) (b : Byte) : (s.setV x b).dt = s.dt := rfl
@[simp] theorem setV_st (x : Reg) (b : Byte) : (s.setV x b).st = s.st := rfl
@[simp] theorem setV_fb (x : Reg) (b : Byte) : (s.setV x b).fb = s.fb := rfl
@[simp] theorem setV_keys (x : Reg) (b : Byte) : (s.setV x b).keys = s.keys := rfl
@[simp] theorem setV_aw (x : Reg) (b : Byte) : (s.setV x b).aw = s.aw := rfl
@[simp] theorem setV_kr (x : Reg) (b : Byte) : (s.setV x b).kr = s.kr := rfl
@[simp] theorem setV_lk (x : Reg) (b : Byte) : (s.setV x b).lk = s.lk := rfl
@[simp] theorem setV_mem (x : Reg) (b : Byte) : (s.setV x b).mem = s.mem := rfl
@[simp] theorem setV_fault (x : Reg) (b : Byte) : (s.setV x b).fault = s.fault := rfl
@[simp] theorem setV_events (x : Reg) (b : Byte) : (s.setV x b).events = s.events := rfl
@[simp] theorem setV_draws (x : Reg) (b : Byte) : (s.setV x b).draws = s.draws := rfl
@[simp] theorem setV_loadable (x : Reg) (b : Byte) : (s.setV x b).loadable = s.loadable := rfl
@[simp] theorem setV_byteAt (x : Reg) (b : Byte) (ad : Nat) : (s.setV x b).byteAt ad = s.byteAt ad := rfl

/-! `setI` -/

@[simp] theorem setI_v (w : Word) : (s.setI w).v = s.v := rfl
@[simp] theorem setI_i (w : Word) : (s.setI w).i = w := rfl
@[simp] theorem setI_pc (w : Word) : (s.setI w).pc = s.pc := rfl
@[simp] theorem setI_stack (w : Word) : (s.setI w).stack = s.stack := rfl
@[simp] theorem setI_dt (w : Word) : (s.setI w).dt = s.dt := rfl
@[simp] theorem setI_st (w : Word) : (s.setI w).st = s.st := rfl
@[simp] theorem setI_fb (w : Word) : (s.setI w).fb = s.fb := rfl
@[simp] theorem setI_keys (w : Word) : (s.setI w).keys = s.keys := rfl
@[simp] theorem setI_aw (w : Word) : (s.setI w).aw = s.aw := rfl
@[simp] theorem setI_kr (w : Word) : (s.setI w).kr = s.kr := rfl
@[simp] theorem setI_lk (w : Word) : (s.setI w).lk = s.lk := rfl
@[simp] theorem setI_mem (w : Word) : (s.setI w).mem = s.mem := rfl
@[simp] theorem setI_fault (w : Word) : (s.setI w).fault = s.fault := rfl
@[simp] theorem setI_events (w : Word) : (s.setI w).events = s.events := rfl
@[simp] theorem setI_draws (w : Word) : (s.setI w).draws = s.draws := rfl
@[simp] theorem setI_loadable (w : Word) : (s.setI w).loadable = s.loadable := rfl
@[simp] theorem setI_getV (w : Word) (q : Reg) : (s.setI w).getV q = s.getV q := rfl
@[simp] theorem setI_byteAt (w : Word) (ad : Nat) : (s.setI w).byteAt ad = s.byteAt ad := rfl

/-! `setPc` -/

@[simp] theorem setPc_v (w : Word) : (s.setPc w).v = s.v := rfl
@[simp] theorem setPc_i (w : Word) : (s.setPc w).i = s.i := rfl
@[simp] theorem setPc_pc (w : Word) : (s.setPc w).pc = w := rfl
@[simp] theorem setPc_stack (w : Word) : (s.setPc w).stack = s.stack := rfl
@[simp] theorem setPc_dt (w : Word) : (s.setPc w).dt = s.dt := rfl
@[simp] theorem setPc_st (w : Word) : (s.setPc w).st = s.st := rfl
@[simp] theorem setPc_fb (w : Word) : (s.setPc w).fb = s.fb := rfl
@[simp] theorem setPc_keys (w : Word) : (s.setPc w).keys = s.keys := rfl
@[simp] theorem setPc_aw (w : Word) : (s.setPc w).aw = s.aw := rfl
@[simp] theorem setPc_kr (w : Word) : (s.setPc w).kr = s.kr := rfl
@[simp] theorem setPc_lk (w : Word) : (s.setPc w).lk = s.lk := rfl
@[simp] theorem setPc_mem (w : Word) : (s.setPc w).mem = s.mem := rfl
@[simp] theorem setPc_fault (w : Word) : (s.setPc w).fault = s.fault := rfl
@[simp] theorem setPc_events (w : Word) : (s.setPc w).events = s.events := rfl
@[simp] theorem setPc_draws (w : Word) : (s.setPc w).draws = s.draws := rfl
@[simp] theorem setPc_loadable (w : Word) : (s.setPc w).loadable = s.loadable := rfl
@[simp] theorem setPc_getV (w : Word) (q : Reg) : (s.setPc w).getV q = s.getV q := rfl
@[simp] theorem setPc_byteAt (w : Word) (ad : Nat) : (s.setPc w).byteAt ad = s.byteAt ad := rfl

/-! `setStack` -/

@[simp] theorem setStack_v (l : List Word) : (s.setStack l).v = s.v := rfl
@[simp] theorem setStack_i (l : List Word) : (s.setStack l).i = s.i := rfl
@[simp] theorem setStack_pc (l : List Word) : (s.setStack l).pc = s.pc := rfl
@[simp] theorem setStack_stack (l : List Word) : (s.setStack l).stack = l := rfl
@[simp] theorem setStack_dt (l : List Word) : (s.setStack l).dt = s.dt := rfl
@[simp] theorem setStack_st (l : List Word) : (s.setStack l).st = s.st := rfl
@[simp] theorem setStack_fb (l : List Word) : (s.setStack l).fb = s.fb := rfl
@[simp] theorem setStack_keys (l : List Word) : (s.setStack l).keys = s.keys := rfl
@[simp] theorem setStack_aw (l : List Word) : (s.setStack l).aw = s.aw := rfl
@[simp] theorem setStack_kr (l : List Word) : (s.setStack l).kr = s.kr := rfl
@[simp] theorem setStack_lk (l : List Word) : (s.setStack l).lk = s.lk := rfl
@[simp] theorem setStack_mem (l : List Word) : (s.setStack l).mem = s.mem := rfl
@[simp] theorem setStack_fault (l : List Word) : (s.setStack l).fault = s.fault := rfl
@[simp] theorem setStack_events (l : List Word) : (s.setStack l).events = s.events := rfl
@[simp] theorem setStack_draws (l : List Word) : (s.setStack l).draws = s.draws := rfl
@[simp] theorem setStack_loadable (l : List Word) : (s.setStack l).loadable = s.loadable := rfl
@[simp] theorem setStack_getV (l : List Word) (q : Reg) : (s.setStack l).getV q = s.getV q := rfl
@[simp] theorem setStack_byteAt (l : List Word) (ad : Nat) : (s.setStack l).byteAt ad = s.byteAt ad := rfl

/-! `setDT` -/

@[simp] theorem setDT_v (b : Byte) : (s.setDT b).v = s.v := rfl
@[simp] theorem setDT_i (b : Byte) : (s.setDT b).i = s.i := rfl
@[simp] theorem setDT_pc (b : Byte) : (s.setDT b).pc = s.pc := rfl
@[simp] theorem setDT_stack (b : Byte) : (s.setDT b).stack = s.stack := rfl
@[simp] theorem setDT_dt (b : Byte) : (s.setDT b).dt = b := rfl
@[simp] theorem setDT_st (b : Byte) : (s.setDT b).st = s.st := rfl
@[simp] theorem setDT_fb (b : Byte) : (s.setDT b).fb = s.fb := rfl
@[simp] theorem setDT_keys (b : Byte) : (s.setDT b).keys = s.keys := rfl
@[simp] theorem setDT_aw (b : Byte) : (s.setDT b).aw = s.aw := rfl
@[simp] theorem setDT_kr (b : Byte) : (s.setDT b).kr = s.kr := rfl
@[simp] theorem setDT_lk (b : Byte) : (s.setDT b).lk = s.lk := rfl
@[simp] theorem setDT_mem (b : Byte) : (s.setDT b).mem = s.mem := rfl
@[simp] theorem setDT_fault (b : Byte) : (s.setDT b).fault = s.fault := rfl
@[simp] theorem setDT_events (b : Byte) : (s.setDT b).events = s.events := rfl
@[simp] theorem setDT_draws (b : Byte) : (s.setDT b).draws = s.draws := rfl
@[simp] theorem setDT_loadable (b : Byte) : (s.setDT b).loadable = s.loadable := rfl
@[simp] theorem setDT_getV (b : Byte) (q : Reg) : (s.setDT b).getV q = s.getV q := rfl
@[simp] theorem setDT_byteAt (b : Byte) (ad : Nat) : (s.setDT b).byteAt ad = s.byteAt ad := rfl

/-! `setST` -/

@[simp] theorem setST_v (b : Byte) : (s.setST b).v = s.v := rfl
@[simp] theorem setST_i (b : Byte) : (s.setST b).i = s.i := rfl
@[simp] theorem setST_pc (b : Byte) : (s.setST b).pc = s.pc := rfl
@[simp] theorem setST_stack (b : Byte) : (s.setST b).stack = s.stack := rfl
@[simp] theorem setST_dt (b : Byte) : (s.setST b).dt = s.dt := rfl
@[simp] theorem setST_st (b : Byte) : (s.setST b).st = b := rfl
@[simp] theorem setST_fb (b : Byte) : (s.setST b).fb = s.fb := rfl
@[simp] theorem setST_keys (b : Byte) : (s.setST b).keys = s.keys := rfl
@[simp] theorem setST_aw (b : Byte) : (s.setST b).aw = s.aw := rfl
@[simp] theorem setST_kr (b : Byte) : (s.setST b).kr = s.kr := rfl
@[simp] theorem setST_lk (b : Byte) : (s.setST b).lk = s.lk := rfl
@[simp] theorem setST_mem (b : Byte) : (s.setST b).mem = s.mem := rfl
@[simp] theorem setST_fault (b : Byte) : (s.setST b).fault = s.fault := rfl
@[simp] theorem setST_events (b : Byte) : (s.setST b).events = s.events := rfl
@[simp] theorem setST_draws (b : Byte) : (s.setST b).draws = s.draws := rfl
@[simp] theorem setST_loadable (b : Byte) : (s.setST b).loadable = s.loadable := rfl
@[simp] theorem setST_getV (b : Byte) (q : Reg) : (s.setST b).getV q = s.getV q := rfl
@[simp] theorem setST_byteAt (b : Byte) (ad : Nat) : (s.setST b).byteAt ad = s.byteAt ad := rfl

/-! `setFB` -/

@[simp] theorem setFB_v (f : Framebuffer) : (s.setFB f).v = s.v := rfl
@[simp] theorem setFB_i (f : Framebuffer) : (s.setFB f).i = s.i := rfl
@[simp] theorem setFB_pc (f : Framebuffer) : (s.setFB f).pc = s.pc := rfl
@[simp] theorem setFB_stack (f : Framebuffer) : (s.setFB f).stack = s.stack := rfl
@[simp] theorem setFB_dt (f : Framebuffer) : (s.setFB f).dt = s.dt := rfl
@[simp] theorem setFB_st (f : Framebuffer) : (s.setFB f).st = s.st := rfl
@[simp] theorem setFB_fb (f : Framebuffer) : (s.setFB f).fb = f := rfl
@[simp] theorem setFB_keys (f : Framebuffer) : (s.setFB f).keys = s.keys := rfl
@[simp] theorem setFB_aw (f : Framebuffer) : (s.setFB f).aw = s.aw := rfl
@[simp] theorem setFB_kr (f : Framebuffer) : (s.setFB f).kr = s.kr := rfl
@[simp] theorem setFB_lk (f : Framebuffer) : (s.setFB f).lk = s.lk := rfl
@[simp] theorem setFB_mem (f : Framebuffer) : (s.setFB f).mem = s.mem := rfl
@[simp] theorem setFB_fault (f : Framebuffer) : (s.setFB f).fault = s.fault := rfl
@[simp] theorem setFB_events (f : Framebuffer) : (s.setFB f).events = s.events := rfl
@[simp] theorem setFB_draws (f : Framebuffer) : (s.setFB f).draws = s.draws := rfl
@[simp] theorem setFB_loadable (f : Framebuffer) : (s.setFB f).loadable = s.loadable := rfl
@[simp] theorem setFB_getV (f : Framebuffer) (q : Reg) : (s.setFB f).getV q = s.getV q := rfl
@[simp] theorem setFB_byteAt (f : Framebuffer) (ad : Nat) : (s.setFB f).byteAt ad = s.byteAt ad := rfl

/-! `setWait` -/

@[simp] theorem setWait_v (a r : Bool) : (s.setWait a r).v = s.v := rfl
@[simp] theorem setWait_i (a r : Bool) : (s.setWait a r).i = s.i := rfl
@[simp] theorem setWait_pc (a r : Bool) : (s.setWait a r).pc = s.pc := rfl
@[simp] theorem setWait_stack (a r : Bool) : (s.setWait a r).stack = s.stack := rfl
@[simp] theorem setWait_dt (a r : Bool) : (s.setWait a r).dt = s.dt := rfl
@[simp] theorem setWait_st (a r : Bool) : (s.setWait a r).st = s.st := rfl
@[simp] theorem setWait_fb (a r : Bool) : (s.setWait a r).fb = s.fb := rfl
@[simp] theorem setWait_keys (a r : Bool) : (s.setWait a r).keys = s.keys := rfl
@[simp] theorem setWait_aw (a r : Bool) : (s.setWait a r).aw = a := rfl
@[simp] theorem setWait_kr (a r : Bool) : (s.setWait a r).kr = r := rfl
@[simp] theorem setWait_lk (a r : Bool) : (s.setWait a r).lk = s.lk := rfl
@[simp] theorem setWait_mem (a r : Bool) : (s.setWait a r).mem = s.mem := rfl
@[simp] theorem setWait_fault (a r : Bool) : (s.setWait a r).fault = s.fault := rfl
@[simp] theorem setWait_events (a r : Bool) : (s.setWait a r).events = s.events := rfl
@[simp] theorem setWait_draws (a r : Bool) : (s.setWait a r).draws = s.draws := rfl
@[simp] theorem setWait_loadable (a r : Bool) : (s.setWait a r).loadable = s.loadable := rfl
@[simp] theorem setWait_getV (a r : Bool) (q : Reg) : (s.setWait a r).getV q = s.getV q := rfl
@[simp] theorem setWait_byteAt (a r : Bool) (ad : Nat) : (s.setWait a r).byteAt ad = s.byteAt ad := rfl

/-! `setRegs` -/

@[simp] theorem setRegs_v (v : Vector Byte 16) : (s.setRegs v).v = v := rfl
@[simp] theorem setRegs_i (v : Vector Byte 16) : (s.setRegs v).i = s.i := rfl
@[simp] theorem setRegs_pc (v : Vector Byte 16) : (s.setRegs v).pc = s.pc := rfl
@[simp] theorem setRegs_stack (v : Vector Byte 16) : (s.setRegs v).stack = s.stack := rfl
@[simp] theorem setRegs_dt (v : Vector Byte 16) : (s.setRegs v).dt = s.dt := rfl
@[simp] theorem setRegs_st (v : Vector Byte 16) : (s.setRegs v).st = s.st := rfl
@[simp] theorem setRegs_fb (v : Vector Byte 16) : (s.setRegs v).fb = s.fb := rfl
@[simp] theorem setRegs_keys (v : Vector Byte 16) : (s.setRegs v).keys = s.keys := rfl
@[simp] theorem setRegs_aw (v : Vector Byte 16) : (s.setRegs v).aw = s.aw := rfl
@[simp] theorem setRegs_kr (v : Vector Byte 16) : (s.setRegs v).kr = s.kr := rfl
@[simp] theorem setRegs_lk (v : Vector Byte 16) : (s.setRegs v).lk = s.lk := rfl
@[simp] theorem setRegs_mem (v : Vector Byte 16) : (s.setRegs v).mem = s.mem := rfl
@[simp] theorem setRegs_fault (v : Vector Byte 16) : (s.setRegs v).fault = s.fault := rfl
@[simp] theorem setRegs_events (v : Vector Byte 16) : (s.setRegs v).events = s.events := rfl
@[simp] theorem setRegs_draws (v : Vector Byte 16) : (s.setRegs v).draws = s.draws := rfl
@[simp] theorem setRegs_loadable (v : Vector Byte 16) : (s.setRegs v).loadable = s.loadable := rfl
@[simp] theorem setRegs_byteAt (v : Vector Byte 16) (ad : Nat) : (s.setRegs v).byteAt ad = s.byteAt ad := rfl
@[simp] theorem setRegs_getV (v : Vector Byte 16) (q : Reg) : (s.setRegs v).getV q = v[q] := rfl

/-! `setMem` -/

@[simp] theorem setMem_v (m : Memory) : (s.setMem m).v = s.v := rfl
@[simp] theorem setMem_i (m : Memory) : (s.setMem m).i = s.i := rfl
@[simp] theorem setMem_pc (m : Memory) : (s.setMem m).pc = s.pc := rfl
@[simp] theorem setMem_stack (m : Memory) : (s.setMem m).stack = s.stack := rfl
@[simp] theorem setMem_dt (m : Memory) : (s.setMem m).dt = s.dt := rfl
@[simp] theorem setMem_st (m : Memory) : (s.setMem m).st = s.st := rfl
@[simp] theorem setMem_fb (m : Memory) : (s.setMem m).fb = s.fb := rfl
@[simp] theorem setMem_keys (m : Memory) : (s.setMem m).keys = s.keys := rfl
@[simp] theorem setMem_aw (m : Memory) : (s.setMem m).aw = s.aw := rfl
@[simp] theorem setMem_kr (m : Memory) : (s.setMem m).kr = s.kr := rfl
@[simp] theorem setMem_lk (m : Memory) : (s.setMem m).lk = s.lk := rfl
@[simp] theorem setMem_mem (m : Memory) : (s.setMem m).mem = m := rfl
@[simp] theorem setMem_fault (m : Memory) : (s.setMem m).fault = s.fault := rfl
@[simp] theorem setMem_events (m : Memory) : (s.setMem m).events = s.events := rfl
@[simp] theorem setMem_draws (m : Memory) : (s.setMem m).draws = s.draws := rfl
@[simp] theorem setMem_loadable (m : Memory) : (s.setMem m).loadable = s.loadable := rfl
@[simp] theorem setMem_getV (m : Memory) (q : Reg) : (s.setMem m).getV q = s.getV q := rfl
@[simp] theorem setMem_byteAt (m : Memory) (ad : Nat) : (s.setMem m).byteAt ad = memGet m ad := rfl

/-! `countDraw` -/

@[simp] theorem countDraw_v : (s.countDraw).v = s.v := rfl
@[simp] theorem countDraw_i : (s.countDraw).i = s.i := rfl
@[simp] theorem countDraw_pc : (s.countDraw).pc = s.pc := rfl
@[simp] theorem countDraw_stack : (s.countDraw).stack = s.stack := rfl
@[simp] theorem countDraw_dt : (s.countDraw).dt = s.dt := rfl
@[simp] theorem countDraw_st : (s.countDraw).st = s.st := rfl
@[simp] theorem countDraw_fb : (s.countDraw).fb = s.fb := rfl
@[simp] theorem countDraw_keys : (s.countDraw).keys = s.keys := rfl
@[simp] theorem countDraw_aw : (s.countDraw).aw = s.aw := rfl
@[simp] theorem countDraw_kr : (s.countDraw).kr = s.kr := rfl
@[simp] theorem countDraw_lk : (s.countDraw).lk = s.lk := rfl
@[simp] theorem countDraw_mem : (s.countDraw).mem = s.mem := rfl
@[simp] theorem countDraw_fault : (s.countDraw).fault = s.fault := rfl
@[simp] theorem countDraw_events : (s.countDraw).events = s.events := rfl
@[simp] theorem countDraw_draws : (s.countDraw).draws = s.draws + 1 := rfl
@[simp] theorem countDraw_loadable : (s.countDraw).loadable = s.loadable := rfl
@[simp] theorem countDraw_getV (q : Reg) : (s.countDraw).getV q = s.getV q := rfl
@[simp] theorem countDraw_byteAt (ad : Nat) : (s.countDraw).byteAt ad = s.byteAt ad := rfl

/-! `closeLoader` -/

@[simp] theorem closeLoader_v : (s.closeLoader).v = s.v := rfl
@[simp] theorem closeLoader_i : (s.closeLoader).i = s.i := rfl
@[simp] theorem closeLoader_pc : (s.closeLoader).pc = s.pc := rfl
@[simp] theorem closeLoader_stack : (s.closeLoader).stack = s.stack := rfl
@[simp] theorem closeLoader_dt : (s.closeLoader).dt = s.dt := rfl
@[simp] theorem closeLoader_st : (s.closeLoader).st = s.st := rfl
@[simp] theorem closeLoader_fb : (s.closeLoader).fb = s.fb := rfl
@[simp] theorem closeLoader_keys : (s.closeLoader).keys = s.keys := rfl
@[simp] theorem closeLoader_aw : (s.closeLoader).aw = s.aw := rfl
@[simp] theorem closeLoader_kr : (s.closeLoader).kr = s.kr := rfl
@[simp] theorem closeLoader_lk : (s.closeLoader).lk = s.lk := rfl
@[simp] theorem closeLoader_mem : (s.closeLoader).mem = s.mem := rfl
@[simp] theorem closeLoader_fault : (s.closeLoader).fault = s.fault := rfl
@[simp] theorem closeLoader_events : (s.closeLoader).events = s.events := rfl
@[simp] theorem closeLoader_draws : (s.closeLoader).draws = s.draws := rfl
@[simp] theorem closeLoader_loadable : (s.closeLoader).loadable = false := rfl
@[simp] theorem closeLoader_getV (q : Reg) : (s.closeLoader).getV q = s.getV q := rfl
@[simp] theorem closeLoader_byteAt (ad : Nat) : (s.closeLoader).byteAt ad = s.byteAt ad := rfl

/-! `emit` -/

@[simp] theorem emit_v (e : Event) : (s.emit e).v = s.v := rfl
@[simp] theorem emit_i (e : Event) : (s.emit e).i = s.i := rfl
@[simp] theorem emit_pc (e : Event) : (s.emit e).pc = s.pc := rfl
@[simp] theorem emit_stack (e : Event) : (s.emit e).stack = s.stack := rfl
@[simp] theorem emit_dt (e : Event) : (s.emit e).dt = s.dt := rfl
@[simp] theorem emit_st (e : Event) : (s.emit e).st = s.st := rfl
@[simp] theorem emit_fb (e : Event) : (s.emit e).fb = s.fb := rfl
@[simp] theorem emit_keys (e : Event) : (s.emit e).keys = s.keys := rfl
@[simp] theorem emit_aw (e : Event) : (s.emit e).aw = s.aw := rfl
@[simp] theorem emit_kr (e : Event) : (s.emit e).kr = s.kr := rfl
@[simp] theorem emit_lk (e : Event) : (s.emit e).lk = s.lk := rfl
@[simp] theorem emit_mem (e : Event) : (s.emit e).mem = s.mem := rfl
@[simp] theorem emit_fault (e : Event) : (s.emit e).fault = s.fault := rfl
@[simp] theorem emit_events (e : Event) : (s.emit e).events = e :: s.events := rfl
@[simp] theorem emit_draws (e : Event) : (s.emit e).draws = s.draws := rfl
@[simp] theorem emit_loadable (e : Event) : (s.emit e).loadable = s.loadable := rfl
@[simp] theorem emit_getV (e : Event) (q : Reg) : (s.emit e).getV q = s.getV q := rfl
@[simp] theorem emit_byteAt (e : Event) (ad : Nat) : (s.emit e).byteAt ad = s.byteAt ad := rfl

/-! `raise` -/

@[simp] theorem raise_v (k : FaultKind) (w : Option Word) (n : Option Nat) : (s.raise k w n).v = s.v := rfl
@[simp] theorem raise_i (k : FaultKind) (w : Option Word) (n : Option Nat) : (s.raise k w n).i = s.i := rfl
@[simp] theorem raise_pc (k : FaultKind) (w : Option Word) (n : Option Nat) : (s.raise k w n).pc = s.pc := rfl
@[simp] theorem raise_stack (k : FaultKind) (w : Option Word) (n : Option Nat) : (s.raise k w n).stack = s.stack := rfl
@[simp] theorem raise_dt (k : FaultKind) (w : Option Word) (n : Option Nat) : (s.raise k w n).dt = s.dt := rfl
@[simp] theorem raise_st (k : FaultKind) (w : Option Word) (n : Option Nat) : (s.raise k w n).st = s.st := rfl
@[simp] theorem raise_fb (k : FaultKind) (w : Option Word) (n : Option Nat) : (s.raise k w n).fb = s.fb := rfl
@[simp] theorem raise_keys (k : FaultKind) (w : Option Word) (n : Option Nat) : (s.raise k w n).keys = s.keys := rfl
@[simp] theorem raise_aw (k : FaultKind) (w : Option Word) (n : Option Nat) : (s.raise k w n).aw = s.aw := rfl
@[simp] theorem raise_kr (k : FaultKind) (w : Option Word) (n : Option Nat) : (s.raise k w n).kr = s.kr := rfl
@[simp] theorem raise_lk (k : FaultKind) (w : Option Word) (n : Option Nat) : (s.raise k w n).lk = s.lk := rfl
@[simp] theorem raise_mem (k : FaultKind) (w : Option Word) (n : Option Nat) : (s.raise k w n).mem = s.mem := rfl
@[simp] theorem raise_fault (k : FaultKind) (w : Option Word) (n : Option Nat) : (s.raise k w n).fault = some ⟨k, s.pc, w, n⟩ := rfl
@[simp] theorem raise_events (k : FaultKind) (w : Option Word) (n : Option Nat) : (s.raise k w n).events = .report (.fault ⟨k, s.pc, w, n⟩) :: s.events := rfl
@[simp] theorem raise_draws (k : FaultKind) (w : Option Word) (n : Option Nat) : (s.raise k w n).draws = s.draws := rfl
@[simp] theorem raise_loadable (k : FaultKind) (w : Option Word) (n : Option Nat) : (s.raise k w n).loadable = s.loadable := rfl
@[simp] theorem raise_getV (k : FaultKind) (w : Option Word) (n : Option Nat) (q : Reg) : (s.raise k w n).getV q = s.getV q := rfl
@[simp] theorem raise_byteAt (k : FaultKind) (w : Option Word) (n : Option Nat) (ad : Nat) : (s.raise k w n).byteAt ad = s.byteAt ad := rfl

/-! The register written, and the others -/

@[simp] theorem getV_setV_same (x : Reg) (b : Byte) : (s.setV x b).getV x = b := by
  simp [State.getV, State.setV]

theorem getV_setV_other (x r : Reg) (b : Byte) (h : r ≠ x) : (s.setV x b).getV r = s.getV r := by
  have : x.val ≠ r.val := fun e => h (Fin.ext e.symm)
  simp [State.getV, State.setV, Vector.getElem_set_ne _ _ this]

theorem getV_setV (x r : Reg) (b : Byte) : (s.setV x b).getV r = if r = x then b else s.getV r := by
  split
  next h => simp [h]
  next h => exact getV_setV_other s x r b h

/-! The named combinations, as the updates they are -/

@[simp] theorem advance_eq : s.advance = s.setPc (s.pc + 2) := rfl
@[simp] theorem skipIf_eq (c : Bool) : s.skipIf c = s.setPc (if c then s.pc + 4 else s.pc + 2) := rfl
@[simp] theorem push_eq (a : Word) : s.push a = s.setStack (s.stack ++ [a]) := rfl
@[simp] theorem setFlag_eq (f : Bool) : s.setFlag f = s.setV flagReg (flagByte f) := rfl
@[simp] theorem reportUnknown_eq (w : Word) : s.reportUnknown w = s.emit (.report (.unknown w s.pc)) := rfl
@[simp] theorem unknownNoOp_eq (w : Word) :
    s.unknownNoOp w = (s.emit (.report (.unknown w s.pc))).setPc (s.pc + 2) := rfl
@[simp] theorem raiseRange_eq (i : Instr) (a : Nat) :
    s.raiseRange i a = s.raise .memoryOutOfRange (some (encode i)) (some a) := rfl

end Sys2Proof.Machine
end

