-- ==== Sys2Proof/Laws/Memory.lean ====
section
/-! SUPPORT. Memory: a read after a write gives what was written, a write leaves every other byte alone, and every memory
operation keeps the canonical form, in which equal memories are equal data. -/

namespace Sys2Proof.Machine

theorem wfFrom_cons {lo a : Nat} {u : Byte} {rest : Memory} :
    Memory.wfFrom lo ((a, u) :: rest) = true ↔
      lo ≤ a ∧ a < 4096 ∧ u ≠ 0 ∧ Memory.wfFrom (a + 1) rest = true := by
  simp [Memory.wfFrom, and_assoc]

/-- A memory that lists nothing below `lo` lists nothing below a smaller bound. -/
theorem wfFrom_mono {m : Memory} {lo lo' : Nat} (hle : lo' ≤ lo) (h : m.wfFrom lo = true) : m.wfFrom lo' = true := by
  cases m with
  | nil => rfl
  | cons c rest =>
    obtain ⟨h1, h2⟩ := wfFrom_cons.1 h
    exact wfFrom_cons.2 ⟨hle.trans h1, h2⟩

/-- Below the first listed address every byte is 0. -/
theorem memGet_below {m : Memory} {lo a : Nat} (h : m.wfFrom lo = true) (ha : a < lo) : memGet m a = 0 := by
  cases m with
  | nil => rfl
  | cons c rest =>
    obtain ⟨h1, -⟩ := wfFrom_cons.1 h
    simp [memGet, Nat.lt_of_lt_of_le ha h1]

/-- No address outside memory is listed. -/
theorem memGet_outside {m : Memory} {lo a : Nat} (h : m.wfFrom lo = true) (ha : 4096 ≤ a) : memGet m a = 0 := by
  induction m generalizing lo with
  | nil => rfl
  | cons c rest ih =>
    obtain ⟨-, h2, -, h4⟩ := wfFrom_cons.1 h
    have hc : c.1 < a := by omega
    simp [memGet, Nat.not_lt.2 hc.le, hc.ne', ih h4]

theorem wfFrom_cellOrNone {lo a : Nat} {u : Byte} {rest : Memory} (hlo : lo ≤ a) (ha : a < 4096)
    (h : Memory.wfFrom (a + 1) rest = true) : Memory.wfFrom lo (cellOrNone a u ++ rest) = true := by
  unfold cellOrNone
  split
  · exact wfFrom_mono (by omega) h
  next hu => exact wfFrom_cons.2 ⟨hlo, ha, hu, h⟩

theorem wfFrom_memSet {m : Memory} {lo a : Nat} {u : Byte} (hlo : lo ≤ a) (ha : a < 4096)
    (h : m.wfFrom lo = true) : (memSet m a u).wfFrom lo = true := by
  induction m generalizing lo with
  | nil => simpa [memSet] using wfFrom_cellOrNone (u := u) hlo ha (rest := []) rfl
  | cons c rest ih =>
    obtain ⟨b, w⟩ := c
    obtain ⟨h1, h2, h3, h4⟩ := wfFrom_cons.1 h
    simp only [memSet]
    split
    next hab => exact wfFrom_cellOrNone hlo ha (wfFrom_cons.2 ⟨hab, h2, h3, h4⟩)
    split
    next hab => exact wfFrom_cellOrNone hlo ha (hab ▸ h4)
    next h5 h6 => exact wfFrom_cons.2 ⟨h1, h2, h3, ih (by omega) h4⟩

/-- Writing a byte inside memory keeps the canonical form. -/
theorem wf_memSet {m : Memory} {a : Nat} {u : Byte} (ha : a < 4096) (h : m.wf = true) : (memSet m a u).wf = true :=
  wfFrom_memSet (Nat.zero_le a) ha h

theorem memGet_cellOrNone {lo a c : Nat} {u : Byte} {rest : Memory} (h : Memory.wfFrom lo rest = true) (hlo : a < lo) :
    memGet (cellOrNone a u ++ rest) c = if c = a then u else if c < a then 0 else memGet rest c := by
  unfold cellOrNone
  split
  next hu =>
    subst hu
    rcases Nat.lt_trichotomy c a with hc | hc | hc
    · simp [memGet_below h (hc.trans hlo), hc.ne, hc]
    · simp [hc, memGet_below h hlo]
    · simp [hc.ne', Nat.not_lt.2 hc.le]
  next hu =>
    rcases Nat.lt_trichotomy c a with hc | hc | hc
    · simp [memGet, hc, hc.ne]
    · simp [memGet, hc]
    · simp [memGet, hc.ne', Nat.not_lt.2 hc.le]

/-- What every address reads after one byte is written. -/
theorem memGet_memSet_from {m : Memory} {lo a c : Nat} {u : Byte} (h : m.wfFrom lo = true) :
    memGet (memSet m a u) c = if c = a then u else memGet m c := by
  induction m generalizing lo with
  | nil =>
    have := memGet_cellOrNone (u := u) (c := c) (rest := []) (lo := a + 1) rfl (Nat.lt_succ_self a)
    simp only [List.append_nil] at this
    simp [memSet, this, memGet]
  | cons p rest ih =>
    obtain ⟨b, w⟩ := p
    obtain ⟨h1, h2, h3, h4⟩ := wfFrom_cons.1 h
    simp only [memSet]
    split
    next hab =>
      rw [memGet_cellOrNone (lo := b) (wfFrom_cons.2 ⟨le_rfl, h2, h3, h4⟩) hab]
      split <;> [rfl; skip]
      split
      next hc => simp [memGet, hc.trans hab]
      next => rfl
    split
    next hab =>
      subst hab
      rw [memGet_cellOrNone h4 (Nat.lt_succ_self a)]
      by_cases hca : c = a
      · simp [hca]
      · by_cases hlt : c < a <;> simp [memGet, hca, hlt]
    next hnl hne =>
      simp only [memGet, ih h4]
      by_cases hcb : c < b
      · have : c ≠ a := by omega
        simp [hcb, this]
      · by_cases hcb' : c = b
        · have : b ≠ a := fun e => hne e.symm
          simp [hcb', this]
        · simp [hcb, hcb']

theorem memGet_memSet {m : Memory} (h : m.wf = true) (a c : Nat) (u : Byte) :
    memGet (memSet m a u) c = if c = a then u else memGet m c := memGet_memSet_from h

/-- Writing a run of bytes inside memory keeps the canonical form. -/
theorem wf_memSetRange {m : Memory} {lo : Nat} {bytes : List Byte} (hr : lo + bytes.length ≤ 4096)
    (h : m.wf = true) : (memSetRange m lo bytes).wf = true := by
  induction bytes generalizing m lo with
  | nil => exact h
  | cons u rest ih =>
    simp only [List.length_cons] at hr
    exact ih (by omega) (wf_memSet (by omega) h)

/-- What every address reads after a run of bytes is written: the byte of the list inside the run, the old byte outside. -/
theorem memGet_memSetRange {m : Memory} {lo : Nat} {bytes : List Byte} (hr : lo + bytes.length ≤ 4096)
    (h : m.wf = true) (c : Nat) :
    memGet (memSetRange m lo bytes) c =
      if lo ≤ c ∧ c < lo + bytes.length then bytes.getD (c - lo) 0 else memGet m c := by
  induction bytes generalizing m lo with
  | nil =>
    have : ¬(lo ≤ c ∧ c < lo) := by omega
    simp [memSetRange, this]
  | cons u rest ih =>
    simp only [List.length_cons] at hr ⊢
    rw [memSetRange, ih (by omega) (wf_memSet (by omega) h), memGet_memSet h]
    rcases Nat.lt_trichotomy c lo with hc | hc | hc
    · simp [Nat.not_le.2 hc, hc.ne, show ¬lo + 1 ≤ c by omega]
    · subst hc
      simp
    · have e : c - lo = (c - (lo + 1)) + 1 := by omega
      by_cases hin : c < lo + (rest.length + 1)
      · simp [show lo + 1 ≤ c by omega, show c < lo + 1 + rest.length by omega, hc.le, hin, e]
      · simp [show ¬c < lo + 1 + rest.length by omega, hin, hc.ne']

/-- The k-th byte of a run that was read. -/
theorem memBytes_getElem? (m : Memory) (lo cnt k : Nat) :
    (memBytes m lo cnt)[k]? = if k < cnt then some (memGet m (lo + k)) else none := by
  induction cnt generalizing lo k with
  | zero => simp [memBytes]
  | succ n ih =>
    cases k with
    | zero => simp [memBytes]
    | succ k =>
      have e : lo + (k + 1) = lo + 1 + k := by omega
      simp [memBytes, ih, e]

@[simp] theorem memBytes_length (m : Memory) (lo cnt : Nat) : (memBytes m lo cnt).length = cnt := by
  induction cnt generalizing lo with
  | zero => rfl
  | succ n ih => simp [memBytes, ih]

/-- Memories in canonical form that read the same everywhere are the same data. -/
theorem wfFrom_ext {m m' : Memory} {lo : Nat} (h : m.wfFrom lo = true) (h' : m'.wfFrom lo = true)
    (heq : ∀ a, memGet m a = memGet m' a) : m = m' := by
  induction m generalizing lo m' with
  | nil =>
    cases m' with
    | nil => rfl
    | cons c rest =>
      obtain ⟨b, w⟩ := c
      obtain ⟨-, -, hw, -⟩ := wfFrom_cons.1 h'
      exact absurd (by simpa [memGet] using heq b : (0 : Byte) = w).symm hw
  | cons c rest ih =>
    obtain ⟨b, w⟩ := c
    obtain ⟨-, -, hw, h4⟩ := wfFrom_cons.1 h
    cases m' with
    | nil => exact absurd (by simpa [memGet] using heq b) hw
    | cons c' rest' =>
      obtain ⟨b', w'⟩ := c'
      obtain ⟨-, -, hw', h4'⟩ := wfFrom_cons.1 h'
      have hb : b = b' := by
        rcases Nat.lt_trichotomy b b' with hlt | he | hlt
        · exact absurd (by simpa [memGet, hlt] using heq b) hw
        · exact he
        · exact absurd (by simpa [memGet, hlt] using (heq b').symm) hw'
      subst hb
      have hww : w = w' := by simpa [memGet] using heq b
      subst hww
      rw [ih h4 h4' fun a => ?_]
      rcases Nat.lt_trichotomy a b with hlt | he | hlt
      · rw [memGet_below h4 (by omega), memGet_below h4' (by omega)]
      · rw [memGet_below h4 (by omega), memGet_below h4' (by omega)]
      · simpa [memGet, Nat.not_lt.2 hlt.le, hlt.ne'] using heq a

theorem wf_ext {m m' : Memory} (h : m.wf = true) (h' : m'.wf = true) (heq : ∀ a, memGet m a = memGet m' a) : m = m' :=
  wfFrom_ext h h' heq

theorem reset_mem_wf : State.reset.mem.wf = true := rfl

end Sys2Proof.Machine
end

