-- ==== Sys2Proof/Laws/Ops.lean ====
section
/-! SUPPORT. For each shared operation, once, everything it can do; a later proof cites these and unfolds nothing. -/

namespace Sys2Proof.Machine

/-! The range check (R52, R170) -/

theorem checkRange_none {lo cnt : Nat} : checkRange lo cnt = none ↔ cnt = 0 ∨ lo + cnt ≤ 4096 := by
  unfold checkRange
  split
  next h => simp only [reduceCtorEq, false_iff]; omega
  next h => simp only [true_iff]; omega

theorem checkRange_some {lo cnt a : Nat} :
    checkRange lo cnt = some a ↔ 0 < cnt ∧ 4096 < lo + cnt ∧ a = max lo 4096 := by
  unfold checkRange
  split
  next h => simp only [Option.some.injEq]; omega
  next h => simp only [reduceCtorEq, false_iff]; omega

/-! The checked accesses (R54) -/

theorem readRange_ok {s : State} {lo cnt : Nat} {bytes : List Byte} :
    s.readRange lo cnt = .ok bytes ↔ (cnt = 0 ∨ lo + cnt ≤ 4096) ∧ bytes = memBytes s.mem lo cnt := by
  unfold State.readRange
  cases h : checkRange lo cnt with
  | none => simp only [Except.ok.injEq, checkRange_none.1 h, true_and]; exact eq_comm
  | some a =>
    have := checkRange_some.1 h
    simp only [reduceCtorEq, false_iff]
    omega

theorem readRange_error {s : State} {lo cnt a : Nat} :
    s.readRange lo cnt = .error a ↔ 0 < cnt ∧ 4096 < lo + cnt ∧ a = max lo 4096 := by
  unfold State.readRange
  cases h : checkRange lo cnt with
  | none =>
    have := checkRange_none.1 h
    simp only [reduceCtorEq, false_iff]
    omega
  | some b =>
    have := checkRange_some.1 h
    simp only [Except.error.injEq]
    omega

theorem writeRange_ok {s t : State} {lo : Nat} {bytes : List Byte} :
    s.writeRange lo bytes = .ok t ↔
      (bytes = [] ∨ lo + bytes.length ≤ 4096) ∧ t = s.setMem (memSetRange s.mem lo bytes) := by
  unfold State.writeRange
  cases h : checkRange lo bytes.length with
  | none =>
    have := checkRange_none.1 h
    rw [List.length_eq_zero_iff] at this
    simp only [Except.ok.injEq, this, true_and]
    exact eq_comm
  | some a =>
    have := checkRange_some.1 h
    simp only [reduceCtorEq, false_iff, ← List.length_eq_zero_iff]
    omega

theorem writeRange_error {s : State} {lo a : Nat} {bytes : List Byte} :
    s.writeRange lo bytes = .error a ↔ 0 < bytes.length ∧ 4096 < lo + bytes.length ∧ a = max lo 4096 := by
  unfold State.writeRange
  cases h : checkRange lo bytes.length with
  | none =>
    have := checkRange_none.1 h
    simp only [reduceCtorEq, false_iff]
    omega
  | some b =>
    have := checkRange_some.1 h
    simp only [Except.error.injEq]
    omega

/-- A checked write keeps the canonical form of memory. -/
theorem wf_writeRange {s t : State} {lo : Nat} {bytes : List Byte} (h : s.writeRange lo bytes = .ok t)
    (hwf : s.mem.wf = true) : t.mem.wf = true := by
  obtain ⟨hr, rfl⟩ := writeRange_ok.1 h
  rcases hr with rfl | hr
  · exact hwf
  · exact wf_memSetRange hr hwf

/-- What every byte reads after a checked write. -/
theorem byteAt_writeRange {s t : State} {lo : Nat} {bytes : List Byte} (h : s.writeRange lo bytes = .ok t)
    (hwf : s.mem.wf = true) (a : Nat) :
    t.byteAt a = if lo ≤ a ∧ a < lo + bytes.length then bytes.getD (a - lo) 0 else s.byteAt a := by
  obtain ⟨hr, rfl⟩ := writeRange_ok.1 h
  rcases hr with rfl | hr
  · have : ¬(lo ≤ a ∧ a < lo) := by omega
    simp [memSetRange, State.byteAt, this]
  · simpa [State.byteAt] using memGet_memSetRange hr hwf a

/-! Fetch (R55, R92) -/

theorem fetch_ok {s : State} {w : Word} : s.fetch = .ok w ↔ s.pc.toNat ≤ 4094 ∧ w = s.wordAtPc := by
  unfold State.fetch
  cases h : checkRange s.pc.toNat 2 with
  | none =>
    have := checkRange_none.1 h
    have hpc : s.pc.toNat ≤ 4094 := by omega
    simp only [Except.ok.injEq, hpc, true_and, State.wordAtPc]
    exact eq_comm
  | some a =>
    have := checkRange_some.1 h
    simp only [reduceCtorEq, false_iff]
    omega

theorem fetch_error {s : State} {a : Nat} :
    s.fetch = .error a ↔ 4094 < s.pc.toNat ∧ a = max s.pc.toNat 4096 := by
  unfold State.fetch
  cases h : checkRange s.pc.toNat 2 with
  | none =>
    have := checkRange_none.1 h
    simp only [reduceCtorEq, false_iff]
    omega
  | some b =>
    have := checkRange_some.1 h
    simp only [Except.error.injEq]
    omega

/-! The fault entry (R243, R244) -/

theorem tookFault_raise (s : State) (k : FaultKind) (w : Option Word) (n : Option Nat) :
    TookFault ⟨k, s.pc, w, n⟩ s (s.raise k w n) := by
  refine ⟨rfl, rfl, fun p hp => ?_⟩
  cases p <;> simp_all [Part.Same]

/-! The ALU's write-back (R140) -/

theorem getV_setFlag (s : State) (f : Bool) (r : Reg) :
    (s.setFlag f).getV r = if r = flagReg then flagByte f else s.getV r := by
  rw [setFlag_eq, getV_setV]

theorem writeAlu_none (s : State) (x : Reg) (b : Byte) : s.writeAlu x (b, none) = s.setV x b := rfl

theorem writeAlu_some (s : State) (x : Reg) (b : Byte) (f : Bool) :
    s.writeAlu x (b, some f) = (s.setV x b).setFlag f := rfl

/-- An ALU instruction touches registers and pc only. -/
theorem aluStep_keeps (s : State) (op : AluOp) (x : Reg) (b : Byte) :
    KeepsAllBut [.regs, .pc] s (s.aluStep op x b) := by
  intro p hp
  cases op <;> cases p <;> first | rfl | (intro; rfl) | simp at hp

theorem aluStep_pc (s : State) (op : AluOp) (x : Reg) (b : Byte) : (s.aluStep op x b).pc = s.pc + 2 := by
  cases op <;> rfl

/-! The end of a step (R99, R100) -/

theorem tickTimers_keeps (s : State) (st0 : Byte) :
    KeepsAllBut [.dt, .st, .events] s (s.tickTimers st0) := by
  intro p hp
  unfold State.tickTimers
  dsimp only
  split <;> cases p <;> simp_all [Part.Same]

theorem tickTimers_dt (s : State) (st0 : Byte) : (s.tickTimers st0).dt = countDown s.dt := by
  unfold State.tickTimers
  dsimp only
  split <;> rfl

theorem tickTimers_st (s : State) (st0 : Byte) : (s.tickTimers st0).st = countDown s.st := by
  unfold State.tickTimers
  dsimp only
  split <;> rfl

theorem tickTimers_events (s : State) (st0 : Byte) :
    (s.tickTimers st0).events =
      if soundStopDue st0 s.st (countDown s.st) then .soundStop :: s.events else s.events := by
  unfold State.tickTimers
  dsimp only
  split <;> rfl

theorem endStep_completed {s0 s : State} (h : s.fault = none) : endStep s0 s = (s.tickTimers s0.st).closeLoader := by
  simp [endStep, h]

theorem endStep_faulted {s0 s : State} {r : FaultRecord} (h : s.fault = some r) : endStep s0 s = s.closeLoader := by
  simp [endStep, h]

/-- After a step no load may come. -/
@[simp] theorem endStep_loadable (s0 s : State) : (endStep s0 s).loadable = false := by
  unfold endStep
  split <;> rfl

/-- Whatever the end of a step does, it touches the timers, the outputs and the loader's flag only. -/
theorem endStep_keeps (s0 s : State) : KeepsAllBut [.dt, .st, .events, .loadable] s (endStep s0 s) := by
  intro p hp
  cases h : s.fault with
  | none =>
    have := tickTimers_keeps s s0.st p fun hm => hp (by simp at hm ⊢; tauto)
    rw [endStep_completed h]
    cases p <;> simp_all [Part.Same]
  | some r =>
    rw [endStep_faulted h]
    cases p <;> simp_all [Part.Same]

/-- The end of a step that took a fault adds nothing to it. -/
theorem stepTookFault_endStep {r : FaultRecord} (s0 : State) {s u : State} (h : TookFault r s u) :
    StepTookFault r s (endStep s0 u) := ⟨u, h, endStep_faulted h.1⟩

/-! Everything a step can do (R103) -/

theorem step_halted {s : State} {r : FaultRecord} (h : s.fault = some r) : step s = .next s := by
  simp [step, h]

theorem step_fetchFault {s : State} (h : s.fault = none) (hpc : 4094 < s.pc.toNat) :
    step s = .next (s.raise .memoryOutOfRange none (some (max s.pc.toNat 4096))).closeLoader := by
  simp [step, endStep, h, fetch_error.2 ⟨hpc, rfl⟩]

theorem step_instr {s : State} {i : Instr} (h : s.fault = none) (hpc : s.pc.toNat ≤ 4094)
    (hd : decode s.wordAtPc = .ok i) : step s = finishStep s (exec i s) := by
  simp [step, h, fetch_ok.2 ⟨hpc, rfl⟩, hd]

theorem step_unknown {s : State} {e : Reject} (h : s.fault = none) (hpc : s.pc.toNat ≤ 4094)
    (hd : decode s.wordAtPc = .error e) :
    step s = .next (endStep s (s.unknownNoOp s.wordAtPc)) := by
  simp [step, h, fetch_ok.2 ⟨hpc, rfl⟩, hd, execUnknown, finishStep]

/-- The four ways a step goes: Halted, a fetch fault, an Unknown word, an instruction. -/
theorem step_cases (s : State) :
    (∃ r, s.fault = some r ∧ step s = .next s) ∨
    (s.fault = none ∧ 4094 < s.pc.toNat ∧
      step s = .next (s.raise .memoryOutOfRange none (some (max s.pc.toNat 4096))).closeLoader) ∨
    (∃ e, s.fault = none ∧ s.pc.toNat ≤ 4094 ∧ decode s.wordAtPc = .error e ∧
      step s = .next (endStep s (s.unknownNoOp s.wordAtPc))) ∨
    (∃ i, s.fault = none ∧ s.pc.toNat ≤ 4094 ∧ decode s.wordAtPc = .ok i ∧
      step s = finishStep s (exec i s)) := by
  cases h : s.fault with
  | some r => exact .inl ⟨r, rfl, step_halted h⟩
  | none =>
    by_cases hpc : 4094 < s.pc.toNat
    · exact .inr (.inl ⟨rfl, hpc, step_fetchFault h hpc⟩)
    · have hpc := Nat.le_of_not_lt hpc
      cases hd : decode s.wordAtPc with
      | error e => exact .inr (.inr (.inl ⟨e, rfl, hpc, rfl, step_unknown h hpc hd⟩))
      | ok i => exact .inr (.inr (.inr ⟨i, rfl, hpc, rfl, step_instr h hpc hd⟩))

end Sys2Proof.Machine
end

