-- ==== Sys2Proof/Laws/Display.lean ====
section
/-! SUPPORT. The draw: what flipping one pixel does, what a whole sprite does, and which pixels a sprite toggles (R192 to
R195). -/

namespace Sys2Proof.Machine

/-- Flipping a pixel changes that pixel and no other. -/
theorem pixelAt_flipPixel (f : Framebuffer) (r r' : Fin 32) (c c' : Fin 64) :
    pixelAt (flipPixel f r c) r' c' = if r' = r ∧ c' = c then !pixelAt f r' c' else pixelAt f r' c' := by
  unfold pixelAt flipPixel
  by_cases hr : r' = r
  · subst hr
    by_cases hc : c' = c
    · subst hc
      simp
    · have : c.val ≠ c'.val := fun e => hc (Fin.ext e.symm)
      simp [hc, Vector.getElem_set_ne _ _ this]
  · have : r.val ≠ r'.val := fun e => hr (Fin.ext e.symm)
    simp [hr, Vector.getElem_set_ne _ _ this]

/-- Every pixel of a cleared framebuffer is off (R191). -/
theorem pixelAt_clearedFB (r : Fin 32) (c : Fin 64) : pixelAt clearedFB r c = false := by
  simp [pixelAt, clearedFB]

/-- Framebuffers with the same pixels are the same data. -/
theorem framebuffer_ext {f g : Framebuffer} (h : ∀ r c, pixelAt f r c = pixelAt g r c) : f = g := by
  apply Vector.ext
  intro i hi
  apply Vector.ext
  intro j hj
  exact h ⟨i, hi⟩ ⟨j, hj⟩

/-- Toggling distinct pixels one after the other flips exactly those, and a collision is one of them being on before. -/
theorem foldl_togglePixel (ps : List (Fin 32 × Fin 64)) (hn : ps.Nodup) (d : Canvas) :
    (∀ r c, pixelAt (ps.foldl togglePixel d).fb r c =
      if (r, c) ∈ ps then !pixelAt d.fb r c else pixelAt d.fb r c) ∧
    ((ps.foldl togglePixel d).collided = true ↔ d.collided = true ∨ ∃ p ∈ ps, pixelAt d.fb p.1 p.2 = true) := by
  induction ps generalizing d with
  | nil => simp
  | cons p ps ih =>
    obtain ⟨hp, hn⟩ := List.nodup_cons.1 hn
    obtain ⟨h1, h2⟩ := ih hn (togglePixel d p)
    simp only [List.foldl_cons]
    refine ⟨fun r c => ?_, ?_⟩
    · rw [h1]
      simp only [togglePixel, pixelAt_flipPixel]
      by_cases e : (r, c) = p
      · subst e
        simp [hp]
      · have : ¬(r = p.1 ∧ c = p.2) := fun h => e (Prod.ext h.1 h.2)
        simp [e, this]
    · rw [h2]
      simp only [togglePixel, Bool.or_eq_true, pixelAt_flipPixel, List.mem_cons, exists_eq_or_imp, or_assoc]
      refine or_congr Iff.rfl (or_congr Iff.rfl (exists_congr fun q => and_congr_right fun hq => ?_))
      have : ¬(q.1 = p.1 ∧ q.2 = p.2) := fun h => hp (by rw [← Prod.ext h.1 h.2]; exact hq)
      simp [this]

theorem mem_rowPixels {x0 y0 : Nat} {b : Byte} {p : Fin 32 × Fin 64} :
    p ∈ rowPixels x0 y0 b ↔
      ∃ c, c < 8 ∧ b.getLsbD (7 - c) = true ∧ p.1.val = y0 % 32 ∧ p.2.val = (x0 + c) % 64 := by
  simp only [rowPixels, List.mem_map, List.mem_filter, List.mem_range, spriteBit, wrapPixel]
  constructor
  · rintro ⟨c, ⟨h1, h2⟩, rfl⟩
    exact ⟨c, h1, h2, rfl, rfl⟩
  · rintro ⟨c, h1, h2, h3, h4⟩
    exact ⟨c, ⟨h1, h2⟩, Prod.ext (Fin.ext h3.symm) (Fin.ext h4.symm)⟩

/-- The pixels a sprite toggles are those it covers. -/
theorem mem_spritePixels {rows : List Byte} {x0 y0 : Nat} {p : Fin 32 × Fin 64} :
    p ∈ spritePixels x0 y0 rows ↔ Covers x0 y0 rows p.1 p.2 := by
  induction rows generalizing y0 with
  | nil => simp [spritePixels, Covers]
  | cons b rest ih =>
    simp only [spritePixels, List.mem_append, mem_rowPixels, ih, Covers]
    constructor
    · rintro (⟨c, h1, h2, h3, h4⟩ | ⟨r, c, b', h0, h1, h2, h3, h4⟩)
      · exact ⟨0, c, b, rfl, h1, h2, h3, h4⟩
      · exact ⟨r + 1, c, b', by simpa using h0, h1, h2, by rw [h3]; congr 1; omega, h4⟩
    · rintro ⟨r, c, b', h0, h1, h2, h3, h4⟩
      cases r with
      | zero =>
        simp only [List.getElem?_cons_zero, Option.some.injEq] at h0
        subst h0
        exact .inl ⟨c, h1, h2, h3, h4⟩
      | succ r => exact .inr ⟨r, c, b', by simpa using h0, h1, h2, by rw [h3]; congr 1; omega, h4⟩

theorem nodup_rowPixels (x0 y0 : Nat) (b : Byte) : (rowPixels x0 y0 b).Nodup := by
  unfold rowPixels
  apply List.Nodup.map_on
  · intro c hc c' hc' h
    simp only [List.mem_filter, List.mem_range] at hc hc'
    have := congrArg (fun p : Fin 32 × Fin 64 => p.2.val) h
    simp only [wrapPixel, Fin.ofNat_eq_cast, Fin.val_natCast] at this
    omega
  · exact List.nodup_range.filter _

/-- A sprite of at most 32 rows toggles no pixel twice (R192). -/
theorem nodup_spritePixels {rows : List Byte} (x0 y0 : Nat) (h : rows.length ≤ 32) :
    (spritePixels x0 y0 rows).Nodup := by
  induction rows generalizing y0 with
  | nil => simp [spritePixels]
  | cons b rest ih =>
    simp only [List.length_cons] at h
    simp only [spritePixels]
    refine List.Nodup.append (nodup_rowPixels _ _ _) (ih _ (by omega)) ?_
    intro p hp hq
    rw [mem_rowPixels] at hp
    rw [mem_spritePixels] at hq
    obtain ⟨c, h1, h2, h3, h4⟩ := hp
    obtain ⟨r, c', b', h0, h1', h2', h3', h4'⟩ := hq
    have : r < rest.length := by
      by_contra hc
      rw [List.getElem?_eq_none (by omega)] at h0
      cases h0
    omega

end Sys2Proof.Machine
end

