-- ==== Sys2Proof/Laws/Exec.lean ====
section
/-! SUPPORT. What an instruction can do at all, once for all of them. -/

namespace Sys2Proof.Machine

/-- Every instruction answers a next state: it completes, leaving FAULT as it was, or it takes one fault whose record fits
its address and holds its word (R243, R244, R249). -/
theorem exec_cases (i : Instr) (s : State) :
    (∃ t, exec i s = .next t ∧ t.fault = s.fault) ∨
    (∃ r : FaultRecord, r.fits s.pc ∧ r.word = some (encode i) ∧
      exec i s = .next (s.raise r.kind r.word r.info)) := by
  cases i
  case ret =>
    simp only [exec, execRet]; split
    · exact .inr ⟨⟨.stackUnderflow, s.pc, _, none⟩, ⟨rfl, rfl⟩, rfl, rfl⟩
    · exact .inl ⟨_, rfl, rfl⟩
  case call nnn =>
    simp only [exec, execCall]; split
    · exact .inr ⟨⟨.stackOverflow, s.pc, _, none⟩, ⟨rfl, rfl⟩, rfl, rfl⟩
    · exact .inl ⟨_, rfl, rfl⟩
  case skp x =>
    simp only [exec, execSkp, keySkip, keyNumber]
    split <;> rename_i h
    · have := (s.getV x).isLt
      split at h
      · cases h
      exact .inr ⟨⟨.invalidKey, s.pc, _, some (s.getV x).toNat⟩, ⟨rfl, _, rfl, by omega, by omega⟩, rfl, rfl⟩
    · exact .inl ⟨_, rfl, rfl⟩
  case sknp x =>
    simp only [exec, execSknp, keySkip, keyNumber]
    split <;> rename_i h
    · have := (s.getV x).isLt
      split at h
      · cases h
      exact .inr ⟨⟨.invalidKey, s.pc, _, some (s.getV x).toNat⟩, ⟨rfl, _, rfl, by omega, by omega⟩, rfl, rfl⟩
    · exact .inl ⟨_, rfl, rfl⟩
  case ldB x =>
    simp only [exec, execLdB]; split <;> rename_i h
    · have := (writeRange_error.1 h).2.2
      exact .inr ⟨⟨.memoryOutOfRange, s.pc, _, some _⟩, ⟨rfl, _, rfl, by omega⟩, rfl, rfl⟩
    · obtain ⟨_, rfl⟩ := writeRange_ok.1 h
      exact .inl ⟨_, rfl, rfl⟩
  case ldMemVx x =>
    simp only [exec, execLdMemVx]; split <;> rename_i h
    · have := (writeRange_error.1 h).2.2
      exact .inr ⟨⟨.memoryOutOfRange, s.pc, _, some _⟩, ⟨rfl, _, rfl, by omega⟩, rfl, rfl⟩
    · obtain ⟨_, rfl⟩ := writeRange_ok.1 h
      exact .inl ⟨_, rfl, rfl⟩
  case ldVxMem x =>
    simp only [exec, execLdVxMem]; split <;> rename_i h
    · have := (readRange_error.1 h).2.2
      exact .inr ⟨⟨.memoryOutOfRange, s.pc, _, some _⟩, ⟨rfl, _, rfl, by omega⟩, rfl, rfl⟩
    · exact .inl ⟨_, rfl, rfl⟩
  case drw x y n =>
    simp only [exec, execDrw]; split <;> rename_i h
    · have := (readRange_error.1 h).2.2
      exact .inr ⟨⟨.memoryOutOfRange, s.pc, _, some _⟩, ⟨rfl, _, rfl, by omega⟩, rfl, rfl⟩
    · exact .inl ⟨_, rfl, rfl⟩
  case ldVxK x =>
    left
    simp only [exec, execLdVxK]
    repeat' split
    all_goals exact ⟨_, rfl, rfl⟩
  all_goals exact .inl ⟨_, rfl, rfl⟩

end Sys2Proof.Machine
end

