-- ==== Sys2Proof/Laws/Operands.lean ====
section
/-! SUPPORT. What the operand forms are, as numbers and lists. -/

namespace Sys2Proof.Machine

theorem toNat_absolute (nnn : Addr12) : (absolute nnn).toNat = nnn.toNat := by
  have := nnn.isLt
  simp only [absolute, BitVec.toNat_setWidth]
  omega

theorem toNat_indexedByV0 (s : State) (nnn : Addr12) :
    (s.indexedByV0 nnn).toNat = nnn.toNat + (s.getV 0).toNat := by
  have := nnn.isLt
  have := (s.getV 0).isLt
  simp only [State.indexedByV0, BitVec.toNat_add, toNat_absolute, BitVec.toNat_setWidth]
  omega

theorem toNat_indexPlus (s : State) (x : Reg) :
    (s.indexPlus x).toNat = (s.i.toNat + (s.getV x).toNat) % 65536 := by
  have := (s.getV x).isLt
  simp only [State.indexPlus, BitVec.toNat_add, BitVec.toNat_setWidth]
  omega

theorem toNat_glyphAddress (b : Byte) : (glyphAddress b).toNat = 5 * b.toNat := by
  have := b.isLt
  simp only [glyphAddress, Config.fontBase, Config.glyphStride, BitVec.toNat_ofNat]
  omega

theorem keyNumber_some {b : Byte} {k : Reg} : keyNumber b = some k ↔ b.toNat = k.val := by
  unfold keyNumber
  split
  next h => simp only [Option.some.injEq, Fin.ext_iff]
  next h =>
    have := k.isLt
    simp only [reduceCtorEq, false_iff]
    omega

theorem keyNumber_none {b : Byte} : keyNumber b = none ↔ 15 < b.toNat := by
  unfold keyNumber
  split
  next h => simp only [reduceCtorEq, false_iff]; omega
  next h => simp only [true_iff]; omega

theorem toNat_keyByte (k : Reg) : (keyByte k).toNat = k.val := by
  have := k.isLt
  simp only [keyByte, BitVec.toNat_ofNat]
  omega

@[simp] theorem bcdDigits_length (b : Byte) : (bcdDigits b).length = 3 := rfl

@[simp] theorem regsUpTo_length (s : State) (x : Reg) : (s.regsUpTo x).length = x.val + 1 := by
  have := x.isLt
  simp only [State.regsUpTo, List.length_take, Vector.length_toList]
  omega

theorem regsUpTo_getD (s : State) {x k : Reg} (h : k ≤ x) : (s.regsUpTo x).getD k.val 0 = s.getV k := by
  have hk : k.val ≤ x.val := h
  rw [List.getD_eq_getElem?_getD, State.regsUpTo, List.getElem?_take_of_lt (by omega)]
  simp [State.getV]

/-- A block load gives each register the byte of its number, where there is one, and keeps the others. -/
theorem getV_setRegs_loadRegs (s : State) (bytes : List Byte) (k : Reg) :
    (s.setRegs (loadRegs s.v bytes)).getV k = bytes.getD k.val (s.getV k) := by
  simp [loadRegs, State.getV]

theorem toNat_countDown (b : Byte) : (countDown b).toNat = b.toNat - 1 := by
  unfold countDown
  split
  next h => simp [h]
  next h =>
    have h0 : b.toNat ≠ 0 := fun e => h (BitVec.eq_of_toNat_eq e)
    rw [BitVec.toNat_sub_of_le (by simp only [BitVec.le_def, BitVec.ofNat_eq_ofNat, BitVec.toNat_ofNat]; omega)]
    rfl

theorem memBytes_eq_map (m : Memory) (lo cnt : Nat) :
    memBytes m lo cnt = (List.range cnt).map fun r => memGet m (lo + r) := by
  apply List.ext_getElem?
  intro k
  rw [memBytes_getElem?]
  by_cases h : k < cnt
  · simp [h]
  · rw [if_neg h, List.getElem?_eq_none (by simp only [List.length_map, List.length_range]; omega)]

end Sys2Proof.Machine
end

