-- ==== Sys2Proof/Laws/PerInstr.lean ====
section
/-! SUPPORT. Statements for every instruction, one lemma per constructor of `Instr`.
Family `TableRow`: the word the encoder gives an instruction selects the row spec/opcode_table.json gives it (R75). -/

namespace Sys2Proof.Laws.TableRow

/-- The instruction's word has the match of its row under the row's mask. -/
def Statement (i : Instr) : Prop := (Machine.rowOf i).selects (encode i)

theorem cls : Statement (.cls) := rfl

theorem ret : Statement (.ret) := rfl

theorem sys (nnn : Addr12) : Statement (.sys nnn) := wordNNN_mask _ nnn

theorem jp (nnn : Addr12) : Statement (.jp nnn) := wordNNN_mask _ nnn

theorem call (nnn : Addr12) : Statement (.call nnn) := wordNNN_mask _ nnn

theorem seImm (x : Reg) (nn : Byte) : Statement (.seImm x nn) := wordXNN_mask _ x nn

theorem sneImm (x : Reg) (nn : Byte) : Statement (.sneImm x nn) := wordXNN_mask _ x nn

theorem seReg (x : Reg) (y : Reg) : Statement (.seReg x y) := wordXYN_maskN _ x y _

theorem ldImm (x : Reg) (nn : Byte) : Statement (.ldImm x nn) := wordXNN_mask _ x nn

theorem addImm (x : Reg) (nn : Byte) : Statement (.addImm x nn) := wordXNN_mask _ x nn

theorem ldReg (x : Reg) (y : Reg) : Statement (.ldReg x y) := wordXYN_maskN _ x y _

theorem orReg (x : Reg) (y : Reg) : Statement (.orReg x y) := wordXYN_maskN _ x y _

theorem andReg (x : Reg) (y : Reg) : Statement (.andReg x y) := wordXYN_maskN _ x y _

theorem xorReg (x : Reg) (y : Reg) : Statement (.xorReg x y) := wordXYN_maskN _ x y _

theorem addReg (x : Reg) (y : Reg) : Statement (.addReg x y) := wordXYN_maskN _ x y _

theorem subReg (x : Reg) (y : Reg) : Statement (.subReg x y) := wordXYN_maskN _ x y _

theorem shrReg (x : Reg) (y : Reg) : Statement (.shrReg x y) := wordXYN_maskN _ x y _

theorem subnReg (x : Reg) (y : Reg) : Statement (.subnReg x y) := wordXYN_maskN _ x y _

theorem shlReg (x : Reg) (y : Reg) : Statement (.shlReg x y) := wordXYN_maskN _ x y _

theorem sneReg (x : Reg) (y : Reg) : Statement (.sneReg x y) := wordXYN_maskN _ x y _

theorem ldI (nnn : Addr12) : Statement (.ldI nnn) := wordNNN_mask _ nnn

theorem jpV0 (nnn : Addr12) : Statement (.jpV0 nnn) := wordNNN_mask _ nnn

theorem rnd (x : Reg) (nn : Byte) : Statement (.rnd x nn) := wordXNN_mask _ x nn

theorem drw (x : Reg) (y : Reg) (n : Fin 16) : Statement (.drw x y n) := wordXYN_mask _ x y _

theorem skp (x : Reg) : Statement (.skp x) := wordXNN_maskX _ x _

theorem sknp (x : Reg) : Statement (.sknp x) := wordXNN_maskX _ x _

theorem ldVxDT (x : Reg) : Statement (.ldVxDT x) := wordXNN_maskX _ x _

theorem ldVxK (x : Reg) : Statement (.ldVxK x) := wordXNN_maskX _ x _

theorem ldDTVx (x : Reg) : Statement (.ldDTVx x) := wordXNN_maskX _ x _

theorem ldSTVx (x : Reg) : Statement (.ldSTVx x) := wordXNN_maskX _ x _

theorem addI (x : Reg) : Statement (.addI x) := wordXNN_maskX _ x _

theorem ldF (x : Reg) : Statement (.ldF x) := wordXNN_maskX _ x _

theorem ldB (x : Reg) : Statement (.ldB x) := wordXNN_maskX _ x _

theorem ldMemVx (x : Reg) : Statement (.ldMemVx x) := wordXNN_maskX _ x _

theorem ldVxMem (x : Reg) : Statement (.ldVxMem x) := wordXNN_maskX _ x _

end Sys2Proof.Laws.TableRow
end

