-- ==== Sys2Proof/Tests/Slice0.lean ====
section
/-! SUPPORT. Tests: the ill-formed terms, a word of every instruction written out from spec/30_encoding.md rules R72 and R75,
one-step vectors of spec/95_test_vectors.md (a docstring names the vector), and, for every obligation with hypotheses, a
state that meets them. -/

open Sys2Proof Sys2Proof.Machine

namespace Sys2Proof.Tests

/-! Well-formedness -/

/-- 00E0 is CLS and 00EE is RET, so neither is a SYS word (R75). -/
theorem test_wellFormed_refuses : Instr.wellFormed (.sys 0x0E0) = false ∧ Instr.wellFormed (.sys 0x0EE) = false := by
  decide

theorem test_wellFormed_accepts : Instr.wellFormed (.sys 0x0E1) = true ∧ Instr.wellFormed (.sys 0x1EE) = true := by
  decide

/-! Decoding: the class nibble, then the fields, then the selector -/

theorem test_decode_cls : decode 0b0000000011100000 = .ok .cls := by decide
theorem test_decode_ret : decode 0b0000000011101110 = .ok .ret := by decide
theorem test_decode_sys : decode 0b0000000100100011 = .ok (.sys 0x123) := by decide
theorem test_decode_jp : decode 0b0001101010111100 = .ok (.jp 0xABC) := by decide
theorem test_decode_call : decode 0b0010010000000000 = .ok (.call 0x400) := by decide
theorem test_decode_seImm : decode 0b0011101001000010 = .ok (.seImm 10 0x42) := by decide
theorem test_decode_sneImm : decode 0b0100101001000010 = .ok (.sneImm 10 0x42) := by decide
theorem test_decode_seReg : decode 0b0101000100100000 = .ok (.seReg 1 2) := by decide
theorem test_decode_ldImm : decode 0b0110111100010010 = .ok (.ldImm 15 0x12) := by decide
theorem test_decode_addImm : decode 0b0111000000000011 = .ok (.addImm 0 3) := by decide
theorem test_decode_ldReg : decode 0b1000000000010000 = .ok (.ldReg 0 1) := by decide
theorem test_decode_orReg : decode 0b1000000000010001 = .ok (.orReg 0 1) := by decide
theorem test_decode_andReg : decode 0b1000000000010010 = .ok (.andReg 0 1) := by decide
theorem test_decode_xorReg : decode 0b1000000000010011 = .ok (.xorReg 0 1) := by decide
theorem test_decode_addReg : decode 0b1000000011110100 = .ok (.addReg 0 15) := by decide
theorem test_decode_subReg : decode 0b1000111100010101 = .ok (.subReg 15 1) := by decide
theorem test_decode_shrReg : decode 0b1000001000110110 = .ok (.shrReg 2 3) := by decide
theorem test_decode_subnReg : decode 0b1000000000010111 = .ok (.subnReg 0 1) := by decide
theorem test_decode_shlReg : decode 0b1000001000111110 = .ok (.shlReg 2 3) := by decide
theorem test_decode_sneReg : decode 0b1001000100100000 = .ok (.sneReg 1 2) := by decide
theorem test_decode_ldI : decode 0b1010001011110000 = .ok (.ldI 0x2F0) := by decide
theorem test_decode_jpV0 : decode 0b1011001100000000 = .ok (.jpV0 0x300) := by decide
theorem test_decode_rnd : decode 0b1100001100001111 = .ok (.rnd 3 0x0F) := by decide
theorem test_decode_drw : decode 0b1101101111000101 = .ok (.drw 11 12 5) := by decide
theorem test_decode_skp : decode 0b1110010110011110 = .ok (.skp 5) := by decide
theorem test_decode_sknp : decode 0b1110010110100001 = .ok (.sknp 5) := by decide
theorem test_decode_ldVxDT : decode 0b1111001100000111 = .ok (.ldVxDT 3) := by decide
theorem test_decode_ldVxK : decode 0b1111010000001010 = .ok (.ldVxK 4) := by decide
theorem test_decode_ldDTVx : decode 0b1111000100010101 = .ok (.ldDTVx 1) := by decide
theorem test_decode_ldSTVx : decode 0b1111001000011000 = .ok (.ldSTVx 2) := by decide
theorem test_decode_addI : decode 0b1111001100011110 = .ok (.addI 3) := by decide
theorem test_decode_ldF : decode 0b1111001100101001 = .ok (.ldF 3) := by decide
theorem test_decode_ldB : decode 0b1111010100110011 = .ok (.ldB 5) := by decide
theorem test_decode_ldMemVx : decode 0b1111001101010101 = .ok (.ldMemVx 3) := by decide
theorem test_decode_ldVxMem : decode 0b1111001001100101 = .ok (.ldVxMem 2) := by decide

/-- CF-9, CF-10, CF-27, CF-28: only the whole words 00E0 and 00EE are CLS and RET. -/
theorem test_decode_class0 :
    decode 0x0000 = .ok (.sys 0) ∧ decode 0x00E1 = .ok (.sys 0x0E1) ∧ decode 0x01EE = .ok (.sys 0x1EE) ∧
    decode 0x0100 = .ok (.sys 0x100) := by decide

/-- CF-18, ALU-35, CF-21, KEY-7, TMR-12: selectors are matched exactly. -/
theorem test_decode_rejects :
    decode 0x5121 = .error .class5Selector ∧ decode 0x8128 = .error .class8Selector ∧
    decode 0x800F = .error .class8Selector ∧ decode 0x9121 = .error .class9Selector ∧
    decode 0xE59F = .error .classESelector ∧ decode 0xF00B = .error .classFSelector := by decide

/-- The bounds of R76's ranges: 800D is Unknown and 800E is not. -/
theorem test_decode_range_ends :
    decode 0x8007 = .ok (.subnReg 0 0) ∧ decode 0x800D = .error .class8Selector ∧
    decode 0x800E = .ok (.shlReg 0 0) := by decide

/-- R55, R79: two bytes make an instruction, the first of them the high one; one byte makes none. -/
theorem test_decodeBytes :
    decodeBytes [0x60, 0x05, 0x70] = .ok (.ldImm 0 5, [0x70]) ∧ decodeBytes [0x60] = .error .tooShort := by decide

theorem test_decodeTableWord :
    decodeTableWord 16 0xDBC5 = some (.drw 11 12 5) ∧ decodeTableWord 16 0x5121 = none ∧
    decodeTableWord 24 0x6005 = none := by decide

/-! One step -/

/-- The next state, if there is one. -/
def after : Result → Option State
  | .next t => some t
  | .fault _ => none
  | .refused _ => none

/-- The state after one step of the word `w` from `s`. -/
def stepOf (w : Nat) (s : State) : Option State := after (step (s.withFetchWord 16 w))

/-- The reset state with V[x] and V[y] given, `x` last. -/
def regs2 (x : Reg) (a : Byte) (y : Reg) (b : Byte) : State := (State.reset.setV y b).setV x a

/-- V[x], VF and pc after one step. -/
def aluSeen (w : Nat) (x : Reg) (s : State) : Option (Byte × Byte × Word) :=
  (stepOf w s).map fun t => (t.getV x, t.getV flagReg, t.pc)

/-- The pc and the stack after one step. -/
def flowSeen (w : Nat) (s : State) : Option (Word × List Word) := (stepOf w s).map fun t => (t.pc, t.stack)

/-- FAULT and pc after one step. -/
def faultSeen (w : Nat) (s : State) : Option (Option FaultRecord × Word) := (stepOf w s).map fun t => (t.fault, t.pc)

/-- The outputs and pc after one step. -/
def eventsSeen (w : Nat) (s : State) : Option (List Event × Word) := (stepOf w s).map fun t => (t.events, t.pc)

/-- CF-1. -/
theorem test_jp : flowSeen 0x1ABC State.reset = some (0xABC, []) := by decide
/-- CF-3. -/
theorem test_call : flowSeen 0x2400 State.reset = some (0x400, [0x202]) := by decide
/-- CF-5. -/
theorem test_call_overflow :
    faultSeen 0x2400 (State.reset.setStack (List.replicate 16 0x300)) =
      some (some ⟨.stackOverflow, 0x200, some 0x2400, none⟩, 0x200) := by decide
/-- CF-6. -/
theorem test_ret : flowSeen 0x00EE ((State.reset.setPc 0x400).setStack [0x206]) = some (0x206, []) := by decide
/-- CF-7. -/
theorem test_ret_underflow :
    faultSeen 0x00EE (State.reset.setPc 0x400) = some (some ⟨.stackUnderflow, 0x400, some 0x00EE, none⟩, 0x400) := by
  decide
/-- CF-8. -/
theorem test_sys : eventsSeen 0x0123 State.reset = some ([.report (.unknown 0x0123 0x200)], 0x202) := by decide
/-- CF-27: 01EE is not RET. -/
theorem test_sys_01EE : flowSeen 0x01EE (State.reset.setStack [0x206]) = some (0x202, [0x206]) := by decide
/-- CF-11, CF-12. -/
theorem test_seImm :
    flowSeen 0x3A42 (State.reset.setV 10 0x42) = some (0x204, []) ∧
    flowSeen 0x3A42 (State.reset.setV 10 0x41) = some (0x202, []) := by decide
/-- CF-13, CF-14. -/
theorem test_sneImm :
    flowSeen 0x4A42 (State.reset.setV 10 0x42) = some (0x202, []) ∧
    flowSeen 0x4A42 (State.reset.setV 10 0x41) = some (0x204, []) := by decide
/-- CF-15, CF-16. -/
theorem test_seReg :
    flowSeen 0x5120 (regs2 1 7 2 7) = some (0x204, []) ∧ flowSeen 0x5120 (regs2 1 7 2 8) = some (0x202, []) := by decide
/-- CF-19, CF-20. -/
theorem test_sneReg :
    flowSeen 0x9120 (regs2 1 7 2 7) = some (0x202, []) ∧ flowSeen 0x9120 (regs2 1 7 2 8) = some (0x204, []) := by decide
/-- CF-23: the sum is exact and does not wrap at 4096. -/
theorem test_jpV0 : flowSeen 0xBFFF (State.reset.setV 0 0xFF) = some (0x10FE, []) := by decide
/-- CF-26. -/
theorem test_fetch_fault :
    (after (step (State.reset.setPc 0xFFF))).map (fun t => (t.fault, t.pc)) =
      some (some ⟨.memoryOutOfRange, 0xFFF, none, some 0x1000⟩, 0xFFF) := by decide
/-- CF-23, its second step. -/
theorem test_fetch_fault_far :
    (after (step (State.reset.setPc 0x10FE))).map (fun t => (t.fault, t.pc)) =
      some (some ⟨.memoryOutOfRange, 0x10FE, none, some 0x10FE⟩, 0x10FE) := by decide

/-- ALU-31. -/
theorem test_ldImm : aluSeen 0x6F12 15 State.reset = some (0x12, 0x12, 0x202) := by decide
/-- ALU-29 and ALU-30. -/
theorem test_addImm :
    aluSeen 0x7001 0 (regs2 0 0xFF 15 9) = some (0, 9, 0x202) ∧
    aluSeen 0x7F01 15 (State.reset.setV 15 0xFF) = some (0, 0, 0x202) := by decide
/-- ALU-28. -/
theorem test_ldReg : aluSeen 0x8010 0 (State.reset.setV 1 0x3C) = some (0x3C, 0, 0x202) := by decide
/-- ALU-24. -/
theorem test_orReg : aluSeen 0x8011 0 ((regs2 0 0xF0 1 0x0F).setV 15 7) = some (0xFF, 7, 0x202) := by decide
/-- ALU-25. -/
theorem test_andReg : aluSeen 0x8012 0 ((regs2 0 0xF0 1 0x3C).setV 15 7) = some (0x30, 7, 0x202) := by decide
/-- ALU-26. -/
theorem test_xorReg : aluSeen 0x8013 0 ((regs2 0 0xF0 1 0x3C).setV 15 7) = some (0xCC, 7, 0x202) := by decide
/-- ALU-2. -/
theorem test_addReg : aluSeen 0x8014 0 (regs2 0 0xFF 1 1) = some (0, 1, 0x202) := by decide
/-- ALU-5 and ALU-6: the flag is written last, and read before it is written. -/
theorem test_addReg_flag :
    aluSeen 0x8F14 15 (regs2 15 0xFF 1 2) = some (1, 1, 0x202) ∧
    aluSeen 0x80F4 0 (regs2 0 1 15 1) = some (2, 0, 0x202) := by decide
/-- ALU-8. -/
theorem test_subReg : aluSeen 0x8015 0 (regs2 0 3 1 10) = some (0xF9, 0, 0x202) := by decide
/-- ALU-9: equal operands borrow nothing. -/
theorem test_subReg_equal : aluSeen 0x8015 0 (regs2 0 5 1 5) = some (0, 1, 0x202) := by decide
/-- ALU-18. -/
theorem test_shrReg : aluSeen 0x8236 2 (regs2 2 4 3 0xFF) = some (2, 0, 0x202) := by decide
/-- ALU-19. -/
theorem test_shrReg_flag : aluSeen 0x8F06 15 (State.reset.setV 15 3) = some (1, 1, 0x202) := by decide
/-- ALU-12. -/
theorem test_subnReg : aluSeen 0x8017 0 (regs2 0 3 1 10) = some (7, 1, 0x202) := by decide
/-- ALU-13. -/
theorem test_subnReg_borrow : aluSeen 0x8017 0 (regs2 0 1 1 0) = some (0xFF, 0, 0x202) := by decide
/-- ALU-20. -/
theorem test_shlReg : aluSeen 0x820E 2 (State.reset.setV 2 0x81) = some (2, 1, 0x202) := by decide
/-- ALU-23. -/
theorem test_shlReg_flag : aluSeen 0x8F0E 15 (State.reset.setV 15 0x80) = some (1, 1, 0x202) := by decide
/-- ALU-32 and ALU-33, with the drawn byte given. -/
theorem test_rnd :
    ((State.reset.rndWith 3 0x0F 0xA7).getV 3, (State.reset.rndWith 3 0x00 0xFF).getV 3) = (0x07, 0x00) := by decide
/-- ALU-35 and STP-1: an Unknown word is a no-op that still counts the timers down. -/
theorem test_unknown :
    (stepOf 0x8128 ((regs2 1 1 2 2).setDT 3 |>.setST 1)).map (fun t => (t.events, t.dt, t.st, t.getV 1)) =
      some ([.soundStop, .report (.unknown 0x8128 0x200)], 2, 0, 1) := by decide

/-- I and VF after one step. -/
def indexSeen (w : Nat) (s : State) : Option (Word × Byte × Word) :=
  (stepOf w s).map fun t => (t.i, t.getV flagReg, t.pc)

/-- The bytes at the given addresses, and I, after one step. -/
def bytesSeen (w : Nat) (addrs : List Nat) (s : State) : Option (List Byte × Word) :=
  (stepOf w s).map fun t => (addrs.map t.byteAt, t.i)

/-- MEM-1. -/
theorem test_ldI : indexSeen 0xA123 State.reset = some (0x123, 0, 0x202) := by decide
/-- MEM-2. -/
theorem test_addI : indexSeen 0xF31E ((regs2 3 0x20 15 5).setI 0xFFF0) = some (0x0010, 5, 0x202) := by decide
/-- MEM-5. -/
theorem test_ldF : indexSeen 0xF329 (State.reset.setV 3 0xFF) = some (0x4FB, 0, 0x202) := by decide
/-- MEM-12, against R174's corner case (log entry 13): I = 0xFFD stores. -/
theorem test_ldB_last :
    bytesSeen 0xF533 [0xFFD, 0xFFE, 0xFFF] ((State.reset.setV 5 123).setI 0xFFD) = some ([1, 2, 3], 0xFFD) := by decide
/-- MEM-13. -/
theorem test_ldB_fault :
    faultSeen 0xF533 ((State.reset.setV 5 123).setI 0xFFE) =
      some (some ⟨.memoryOutOfRange, 0x200, some 0xF533, some 0x1000⟩, 0x200) := by decide
/-- MEM-15. -/
theorem test_ldMemVx :
    bytesSeen 0xF055 [0x300, 0x301] ((regs2 0 0xAB 1 2).setI 0x300) = some ([0xAB, 0], 0x300) := by decide
/-- MEM-17. -/
theorem test_ldMemVx_fault :
    faultSeen 0xFF55 (State.reset.setI 0xFF1) =
      some (some ⟨.memoryOutOfRange, 0x200, some 0xFF55, some 0x1000⟩, 0x200) := by decide
/-- MEM-23: the load reads its own bytes. -/
theorem test_ldVxMem :
    (stepOf 0xF165 (State.reset.setI 0x200)).map (fun t => (t.getV 0, t.getV 1, t.getV 2, t.i)) =
      some (0xF1, 0x65, 0, 0x200) := by decide
/-- MEM-20. -/
theorem test_ldVxMem_fault :
    faultSeen 0xF065 (State.reset.setI 0x1000) =
      some (some ⟨.memoryOutOfRange, 0x200, some 0xF065, some 0x1000⟩, 0x200) := by decide

/-- A framebuffer with one pixel on. -/
def onePixel (row : Fin 32) (col : Fin 64) : Framebuffer := flipPixel clearedFB row col

/-- I = 0x300, the byte `b` there, and the framebuffer `f`. -/
def canDraw (b : Byte) (f : Framebuffer) : State :=
  ((State.reset.setI 0x300).setMem (memSet [] 0x300 b)).setFB f

/-- The given pixels and VF after one step. -/
def pixelsSeen (w : Nat) (ps : List (Fin 32 × Fin 64)) (s : State) : Option (List Bool × Byte) :=
  (stepOf w s).map fun t => (ps.map fun p => pixelAt t.fb p.1 p.2, t.getV flagReg)

/-- DRW-11, one pixel. -/
theorem test_cls :
    pixelsSeen 0x00E0 [(31, 63)] ((canDraw 0 (onePixel 31 63)).setV 15 1) = some ([false], 1) := by decide
/-- DRW-2: the row wraps at the right edge. -/
theorem test_drw_wraps :
    pixelsSeen 0xD011 [(31, 62), (31, 63), (31, 0), (31, 6), (31, 7), (0, 0)]
      (((canDraw 0xFF clearedFB).setV 0 63).setV 1 31) = some ([false, true, true, true, false, false], 0) := by decide
/-- DRW-6. -/
theorem test_drw_collision :
    pixelsSeen 0xD011 [(0, 0), (0, 1)] (canDraw 0x80 (onePixel 0 0)) = some ([false, false], 1) := by decide

/-- KEY-1 and KEY-2. -/
theorem test_skp :
    flowSeen 0xE59E ({ State.reset with keys := State.reset.keys.set 10 true }.setV 5 10) = some (0x204, []) ∧
    flowSeen 0xE59E (State.reset.setV 5 10) = some (0x202, []) := by decide
/-- KEY-5. -/
theorem test_skp_invalid :
    faultSeen 0xE59E (State.reset.setV 5 0x10) = some (some ⟨.invalidKey, 0x200, some 0xE59E, some 0x10⟩, 0x200) := by
  decide
/-- KEY-3 and KEY-4. -/
theorem test_sknp :
    flowSeen 0xE5A1 ({ State.reset with keys := State.reset.keys.set 10 true }.setV 5 10) = some (0x202, []) ∧
    flowSeen 0xE5A1 (State.reset.setV 5 10) = some (0x204, []) := by decide
/-- KEY-6. -/
theorem test_sknp_invalid :
    faultSeen 0xE5A1 (State.reset.setV 5 0xFF) = some (some ⟨.invalidKey, 0x200, some 0xE5A1, some 0xFF⟩, 0x200) := by
  decide
/-- TMR-1. -/
theorem test_ldVxDT : (stepOf 0xF307 (State.reset.setDT 9)).map (fun t => (t.getV 3, t.dt)) = some (9, 8) := by decide
/-- KEY-12: a held key does not complete the wait. -/
theorem test_ldVxK_starts :
    (stepOf 0xF40A ({ State.reset with keys := State.reset.keys.set 3 true }.setDT 4)).map
      (fun t => (t.aw, t.kr, t.dt, t.pc)) = some (true, false, 3, 0x200) := by decide
/-- KEY-10. -/
theorem test_ldVxK_completes :
    (stepOf 0xF40A { State.reset.setWait true true with lk := 7 }).map
      (fun t => (t.getV 4, t.aw, t.kr, t.pc)) = some (7, false, false, 0x202) := by decide
/-- TMR-3 and TMR-5. -/
theorem test_ldDTVx :
    (stepOf 0xF115 (State.reset.setV 1 60)).map (fun t => t.dt) = some 59 ∧
    (stepOf 0xF115 (State.reset.setV 1 1)).map (fun t => t.dt) = some 0 := by decide
/-- TMR-7. -/
theorem test_ldSTVx_zero :
    (stepOf 0xF218 (State.reset.setST 3)).map (fun t => (t.st, t.events)) = some (0, [.soundStop]) := by decide
/-- TMR-8 and TMR-6. -/
theorem test_ldSTVx :
    (stepOf 0xF218 (State.reset.setV 2 1)).map (fun t => (t.st, t.events)) = some (0, [.soundStop]) ∧
    (stepOf 0xF218 (State.reset.setV 2 5)).map (fun t => (t.st, t.events)) = some (4, []) := by decide

/-- KEY-16: the last press of a wait wins. -/
theorem test_deliverKey_wait :
    ((deliverKey 3 true (State.reset.setWait true false)).bind (deliverKey 9 true)).map (fun t => (t.kr, t.lk.val)) =
      .ok (true, 9) := by decide
/-- KEY-14 and KEY-18. -/
theorem test_deliverKey :
    (deliverKey 3 true State.reset).map (fun t => t.keys[3]) = .ok true ∧
    (deliverKey 16 true State.reset).map (fun t => t.kr) = .error .noSuchKey := by decide
/-- R274: a second load is refused, after a load of zeros too, and so is a load after a step; after a reset none is. -/
theorem test_load_once :
    ((loadImage (Vector.replicate 80 0) [] State.reset).bind (loadImage (Vector.replicate 80 0) [])).map (fun _ => ()) =
      .error .notJustAfterReset ∧
    (after (step State.reset)).map (fun t => (loadImage Config.defaultFont [] t).map fun _ => ()) =
      some (.error .notJustAfterReset) ∧
    (after (step State.reset)).map (fun t => (loadImage Config.defaultFont [] (hostReset t)).map fun _ => ()) =
      some (.ok ()) := by decide
/-- R273, R274: glyph A is at 0x32, and the image at 0x200. -/
theorem test_boot :
    (boot [0x60, 0x05]).map (fun t => [t.byteAt 0x32, t.byteAt 0x33, t.byteAt 0x200, t.byteAt 0x201]) =
      .ok [0xF0, 0x90, 0x60, 0x05] := by decide

/-! Witnesses: for each obligation with hypotheses, states and operands that meet them, at the ends of their ranges -/

/-- The reset state with the word `w` at pc. -/
def atWord (w : Nat) : State := State.reset.withFetchWord 16 w

/-- A state that halted: RET on an empty stack at 0x200. -/
def halted : State := ((atWord 0x00EE).raise .stackUnderflow (some 0x00EE) none).closeLoader

/-- A loaded state at `FF0A`, in its wait or not, a key pressed or not. -/
def atKeyWait (wait pressed : Bool) : State := ((atWord 0xFF0A).setWait wait pressed).closeLoader

/-- A state in the wait of `FF0A`, a key pressed or not. -/
def waiting (pressed : Bool) : State := atKeyWait true pressed

/-- I = `a`, the word `w` at pc. -/
def indexed (a : Word) (w : Nat) : State := (atWord w).setI a

theorem witness_DecodeOfEncode :
    Instr.wellFormed (.sys 0x0DF) = true ∧ Instr.wellFormed (.sys 0x0E1) = true ∧
    Instr.wellFormed (.sys 0x0ED) = true ∧ Instr.wellFormed (.sys 0x0EF) = true ∧
    Instr.wellFormed (.drw 15 15 15) = true := by decide

theorem witness_EncodeOfDecode : decode 0x00EF = .ok (.sys 0x0EF) ∧ decode 0xFF65 = .ok (.ldVxMem 15) := by decide

/-- Two rows select 00E0; the first of them is its instruction's. -/
theorem witness_DecodeFollowsTheOpcodeMap :
    (rowOf .cls).selects 0x00E0 ∧ (rowOf (.sys 0x0E0)).selects 0x00E0 ∧ decode 0x00E0 = .ok .cls :=
  ⟨rfl, rfl, by decide⟩

theorem witness_UnknownWordsExactly :
    decode 0x5001 = .error .class5Selector ∧ decode 0x8008 = .error .class8Selector ∧
    decode 0x800D = .error .class8Selector ∧ decode 0x800F = .error .class8Selector ∧
    decode 0x900F = .error .class9Selector ∧ decode 0xE09D = .error .classESelector ∧
    decode 0xF066 = .error .classFSelector := by decide

theorem witness_FetchIsBigEndianAndChecked :
    (State.reset.setPc 4094).pc.toNat ≤ 4094 ∧ 4094 < (State.reset.setPc 4095).pc.toNat := by decide

theorem witness_FetchFault :
    (State.reset.setPc 4095).fault = none ∧ 4094 < (State.reset.setPc 4095).pc.toNat ∧
    4094 < (State.reset.setPc 65535).pc.toNat := by decide

theorem aboutToRun_jp : AboutToRun (atWord 0x1ABC) (.jp 0xABC) := ⟨rfl, by decide, by decide⟩

theorem aboutToRun_ret : AboutToRun (atWord 0x00EE) .ret := ⟨rfl, by decide, by decide⟩

/-- Both cases of the conclusion: JP takes no fault, and RET on an empty stack takes one. -/
theorem witness_StepRunsTheDecodedInstruction :
    (AboutToRun (atWord 0x1ABC) (.jp 0xABC) ∧ ∃ t, exec (.jp 0xABC) (atWord 0x1ABC) = .next t ∧ t.fault = none) ∧
    (AboutToRun (atWord 0x00EE) .ret ∧ ∃ t, exec .ret (atWord 0x00EE) = .next t ∧ t.fault ≠ none) :=
  ⟨⟨aboutToRun_jp, _, rfl, rfl⟩, aboutToRun_ret, _, rfl, by decide⟩

theorem witness_UnknownAndSysWordsAreReportedNoOps :
    ((atWord 0x8128).fault = none ∧ (atWord 0x8128).pc.toNat ≤ 4094 ∧
      decode (atWord 0x8128).wordAtPc = .error .class8Selector) ∧
    ((State.reset.setPc 4094).fault = none ∧ (State.reset.setPc 4094).pc.toNat ≤ 4094 ∧
      decode (State.reset.setPc 4094).wordAtPc = .ok (.sys 0)) := by decide

theorem witness_HaltedStepChangesNothing : halted.runMode = .halted := by decide

/-- A step of 6000 with DT = 1, of FX15 and of FX18, and one that takes a fault. -/
theorem witness_TimersCountDownOncePerCompletedStep :
    (((atWord 0x6000).setDT 1).fault = none ∧ ∃ t, step ((atWord 0x6000).setDT 1) = .next t ∧ t.fault = none ∧
      decode ((atWord 0x6000).setDT 1).wordAtPc = .ok (.ldImm 0 0)) ∧
    (∃ t, step (atWord 0xFF15) = .next t ∧ t.fault = none ∧ decode (atWord 0xFF15).wordAtPc = .ok (.ldDTVx 15)) ∧
    (∃ t, step (atWord 0xF018) = .next t ∧ t.fault = none ∧ decode (atWord 0xF018).wordAtPc = .ok (.ldSTVx 0)) ∧
    (∃ t, step (atWord 0x00EE) = .next t ∧ t.fault ≠ none) :=
  ⟨⟨rfl, _, rfl, rfl, by decide⟩, ⟨_, rfl, rfl, by decide⟩, ⟨_, rfl, rfl, by decide⟩, _, rfl, by decide⟩

/-- ST goes from 1 to 0, and ST stays 0, in the step of an instruction; ST goes from 1 to 0 in that of an Unknown word. -/
theorem witness_SoundStopExactlyAtZero :
    (∃ m, ExecutionLeaves ((atWord 0x1ABC).setST 1) m ∧ m.fault = none) ∧
    (∃ m, ExecutionLeaves (atWord 0x1ABC) m ∧ m.fault = none) ∧
    (∃ m, ExecutionLeaves ((atWord 0x8128).setST 1) m ∧ m.fault = none) :=
  ⟨⟨_, ⟨rfl, by decide, rfl⟩, rfl⟩, ⟨_, ⟨rfl, by decide, rfl⟩, rfl⟩, _, ⟨rfl, by decide, rfl⟩, rfl⟩

theorem witness_OutputsOfOneStep : ∃ t, step (atWord 0x8128) = .next t ∧ t.events.length = 1 := ⟨_, rfl, by decide⟩

theorem stateInv_reset : StateInv State.reset :=
  have no_fault : State.reset.fault = none := rfl
  have no_wait : State.reset.aw = false := rfl
  ⟨rfl, by decide, List.forall_mem_nil _, by decide, fun h => by simp [no_wait] at h, fun _ h => by simp [no_fault] at h,
    fun _ => rfl⟩

theorem stateInv_atKeyWait (wait pressed : Bool) (h : pressed = true → wait = true) :
    StateInv (atKeyWait wait pressed) :=
  have no_fault : (atKeyWait wait pressed).fault = none := rfl
  have loaded : (atKeyWait wait pressed).loadable = false := rfl
  have word : decode (atKeyWait wait pressed).wordAtPc = .ok (.ldVxK 15) := by
    cases wait <;> cases pressed <;> decide
  ⟨by cases wait <;> cases pressed <;> decide, by cases wait <;> cases pressed <;> decide, List.forall_mem_nil _, h,
    fun _ => ⟨no_fault, by cases wait <;> cases pressed <;> decide, 15, word⟩, fun _ h => by simp [no_fault] at h,
    fun h => by simp [loaded] at h⟩

theorem stateInv_waiting (pressed : Bool) : StateInv (waiting pressed) := stateInv_atKeyWait true pressed fun _ => rfl

theorem stateInv_halted : StateInv halted :=
  have fault : halted.fault = some ⟨.stackUnderflow, 0x200, some 0x00EE, none⟩ := rfl
  have no_wait : halted.aw = false := rfl
  have loaded : halted.loadable = false := rfl
  have fits : FaultRecord.fits ⟨.stackUnderflow, 0x200, some 0x00EE, none⟩ halted.pc := ⟨rfl, rfl⟩
  ⟨by decide, by decide, List.forall_mem_nil _, by decide, fun h => by simp [no_wait] at h,
    fun r h => by rw [fault, Option.some.injEq] at h; exact h ▸ fits, fun h => by simp [loaded] at h⟩

/-- A running, a waiting and a halted state meet the invariant, and each steps. -/
theorem witness_StepKeepsInv :
    (StateInv State.reset ∧ ∃ t, step State.reset = .next t) ∧
    (StateInv (waiting true) ∧ ∃ t, step (waiting true) = .next t) ∧ (StateInv halted ∧ ∃ t, step halted = .next t) :=
  ⟨⟨stateInv_reset, _, rfl⟩, ⟨stateInv_waiting true, _, rfl⟩, stateInv_halted, _, rfl⟩

theorem witness_HostOperationsKeepInv :
    StateInv (waiting false) ∧ (∃ t, deliverKey 15 true (waiting false) = .ok t) ∧ StateInv State.reset ∧
    ∃ t, loadImage Config.defaultFont [0x12, 0x00] State.reset = .ok t :=
  ⟨stateInv_waiting false, ⟨_, rfl⟩, stateInv_reset, _, rfl⟩

/-- A fault of an instruction and a fault of the fetch. -/
theorem witness_FaultsArePrecise :
    ((atWord 0x00EE).fault = none ∧ step (atWord 0x00EE) = .next halted ∧
      halted.fault = some ⟨.stackUnderflow, 0x200, some 0x00EE, none⟩) ∧
    ((State.reset.setPc 4095).fault = none ∧ ∃ t, step (State.reset.setPc 4095) = .next t ∧
      t.fault = some ⟨.memoryOutOfRange, 4095, none, some 4096⟩) :=
  ⟨⟨rfl, rfl, rfl⟩, rfl, _, rfl, rfl⟩

theorem witness_FaultRecordsTheFetchedWord :
    ((atWord 0x00EE).pc.toNat ≤ 4094 ∧ step (atWord 0x00EE) = .next halted ∧ halted.fault ≠ none) ∧
    (4094 < (State.reset.setPc 4095).pc.toNat ∧ ∃ t, step (State.reset.setPc 4095) = .next t ∧ t.fault ≠ none) :=
  ⟨⟨by decide, rfl, by decide⟩, by decide, _, rfl, by decide⟩

/-- From each run mode; from Running into a wait. -/
theorem witness_RunModeTransitions :
    (StateInv halted ∧ halted.runMode = .halted ∧ ∃ t, step halted = .next t) ∧
    (StateInv (waiting true) ∧ (waiting true).runMode = .awaitingKey ∧ ∃ t, step (waiting true) = .next t) ∧
    (StateInv (waiting false) ∧ (waiting false).runMode = .awaitingKey ∧ ∃ t, step (waiting false) = .next t) ∧
    (StateInv (atKeyWait false false) ∧ (atKeyWait false false).runMode = .running ∧
      ∃ t, step (atKeyWait false false) = .next t ∧ t.runMode = .awaitingKey) :=
  ⟨⟨stateInv_halted, by decide, _, rfl⟩, ⟨stateInv_waiting true, by decide, _, rfl⟩,
    ⟨stateInv_waiting false, by decide, _, rfl⟩, stateInv_atKeyWait false false (by decide), by decide, _, rfl, by decide⟩

/-- Every part that has a writer is changed by one. -/
theorem witness_WhoWritesWhat :
    (∃ t, exec (.call 0) State.reset = .next t ∧ t.stack ≠ State.reset.stack) ∧
    (∃ t, exec (.ldB 0) (State.reset.setV 0 1) = .next t ∧ t.mem ≠ (State.reset.setV 0 1).mem) ∧
    (∃ t, exec .cls (State.reset.setFB (onePixel 0 0)) = .next t ∧ pixelAt t.fb 0 0 ≠ true) ∧
    (∃ t, exec (.ldI 1) State.reset = .next t ∧ t.i ≠ State.reset.i) ∧
    (∃ t, exec (.ldDTVx 0) (State.reset.setV 0 1) = .next t ∧ t.dt ≠ State.reset.dt) ∧
    (∃ t, exec (.ldSTVx 0) (State.reset.setV 0 1) = .next t ∧ t.st ≠ State.reset.st) ∧
    (∃ t, exec (.ldVxK 0) State.reset = .next t ∧ t.aw ≠ State.reset.aw) ∧
    (∃ t, exec (.rnd 0 0) State.reset = .next t ∧ t.draws ≠ State.reset.draws) :=
  ⟨⟨_, rfl, by decide⟩, ⟨_, rfl, by decide⟩, ⟨_, rfl, by decide⟩, ⟨_, rfl, by decide⟩, ⟨_, rfl, by decide⟩,
    ⟨_, rfl, by decide⟩, ⟨_, rfl, by decide⟩, _, rfl, by decide⟩

theorem witness_OnlyListedRegistersAreWritten :
    ∃ t, exec (.ldImm 15 1) State.reset = .next t ∧ t.getV 15 ≠ State.reset.getV 15 := ⟨_, rfl, by decide⟩

theorem witness_KeysAndSoundTimerAreNotRead :
    (∀ x : Reg, Instr.jp 0 ≠ .skp x ∧ Instr.jp 0 ≠ .sknp x ∧ Instr.jp 0 ≠ .ldSTVx x) ∧
    ∃ t, exec (.jp 0) State.reset = .next t := ⟨by decide, _, rfl⟩

theorem witness_CallPushesReturnAddress :
    (State.reset.setStack (List.replicate 15 0x300)).stack.length < 16 ∧ State.reset.stack.length < 16 := by decide

theorem witness_RetPopsIntoPc :
    (State.reset.setStack [0x202, 0x206]).stack = [0x202] ++ [0x206] ∧
    (State.reset.setStack [0x206]).stack = [] ++ [0x206] := by decide

theorem witness_StackFaults :
    (State.reset.setStack (List.replicate 16 0x300)).stack.length = 16 ∧ State.reset.stack = [] := by decide

/-- A CALL at 0x200, and at its target 0x204 the words 6005 and 00EE. -/
def calling : State :=
  (State.reset.setMem [(0x200, 0x22), (0x201, 0x04), (0x204, 0x60), (0x205, 0x05), (0x207, 0xEE)]).closeLoader

/-- `calling` after the CALL. -/
def called : State := (calling.setStack [0x202]).setPc 0x204

/-- `called` after the 6005. -/
def calledOneOn : State := (called.setV 0 5).setPc 0x206

/-- `calledOneOn` with key 3 pressed. -/
def returning : State := { calledOneOn with keys := calledOneOn.keys.set 3 true }

theorem witness_CallReturnRoundTrip :
    AboutToRun calling (.call 0x204) ∧ calling.stack.length < 16 ∧ step calling = .next called ∧
    RunAbove (calling.stack.length + 1) called returning ∧ AboutToRun returning .ret ∧
    returning.stack.length = calling.stack.length + 1 :=
  have after6005 : RunAbove (calling.stack.length + 1) called calledOneOn := .more (.none (by decide)) rfl (by decide)
  have pressed : deliverKey 3 true calledOneOn = .ok returning := rfl
  ⟨⟨rfl, by decide, by decide⟩, by decide, rfl, .key after6005 pressed, ⟨rfl, by decide, by decide⟩, rfl⟩

theorem witness_DecimalStore :
    (indexed 4093 0xF033).mem.wf = true ∧ (indexed 4093 0xF033).indexBase + 3 ≤ 4096 := by decide

theorem witness_BlockStore :
    (indexed 4080 0xFF55).mem.wf = true ∧ (indexed 4080 0xFF55).indexBase + ((15 : Reg).val + 1) ≤ 4096 ∧
    (indexed 4095 0xF055).mem.wf = true ∧ (indexed 4095 0xF055).indexBase + ((0 : Reg).val + 1) ≤ 4096 := by decide

theorem witness_BlockLoad :
    (indexed 4080 0xFF65).indexBase + ((15 : Reg).val + 1) ≤ 4096 ∧
    (indexed 4095 0xF065).indexBase + ((0 : Reg).val + 1) ≤ 4096 := by decide

theorem witness_BlockStoreThenLoad :
    ∃ t, (indexed 4094 0xF155).mem.wf = true ∧ (indexed 4094 0xF155).indexBase + ((1 : Reg).val + 1) ≤ 4096 ∧
      exec (.ldMemVx 1) (indexed 4094 0xF155) = .next t ∧ t.mem = t.mem ∧ t.i = t.i :=
  ⟨_, by decide, by decide, rfl, rfl, rfl⟩

/-- The last two bytes of memory are stored and then fetched. -/
theorem witness_FetchSeesStoredBytes :
    ∃ t, (indexed 4094 0xF155).mem.wf = true ∧ (indexed 4094 0xF155).indexBase + ((1 : Reg).val + 1) ≤ 4096 ∧
      exec (.ldMemVx 1) (indexed 4094 0xF155) = .next t ∧ (1 : Reg).val = (0 : Reg).val + 1 ∧ (1 : Reg) ≤ 1 ∧
      (t.setPc 4094).mem = t.mem ∧ (t.setPc 4094).pc.toNat = (indexed 4094 0xF155).indexBase + (0 : Reg).val :=
  ⟨_, by decide, by decide, rfl, by decide, by decide, rfl, by decide⟩

theorem witness_RangeFaults :
    4096 < (State.reset.setI 4094).indexBase + 3 ∧
    4096 < (State.reset.setI 4096).indexBase + ((0 : Reg).val + 1) ∧
    4096 < (State.reset.setI 4081).indexBase + ((15 : Reg).val + 1) ∧
    (0 < (1 : Fin 16).val ∧ 4096 < (State.reset.setI 4096).indexBase + (1 : Fin 16).val) ∧
    (0 < (15 : Fin 16).val ∧ 4096 < (State.reset.setI 4082).indexBase + (15 : Fin 16).val) := by decide

/-- A sprite with no row covers nothing. -/
theorem no_cover (f : Framebuffer) (on : Bool) :
    ¬∃ row col, Covers 0 0 [] row col ∧ pixelAt f row col = on := by
  rintro ⟨_, _, ⟨_, _, _, h, _⟩, _⟩
  simp at h

/-- A sprite row at the last byte of memory, drawn over an on pixel and over none; and an empty sprite with I past memory. -/
theorem witness_DrawTogglesTheCoveredPixels :
    ((indexed 4095 0xD011).indexBase + (1 : Fin 16).val ≤ 4096 ∧
      (List.range (1 : Fin 16).val).map (fun r => ((indexed 4095 0xD011).setMem [(4095, 0x80)]).byteAt (4095 + r)) =
        [0x80]) ∧
    (Covers 0 0 [0x80] 0 0 ∧ pixelAt ((indexed 4095 0xD011).setFB (onePixel 0 0)).fb 0 0 = true) ∧
    (¬∃ row col, Covers 0 0 [] row col ∧ pixelAt (indexed 65535 0xD010).fb row col = true) ∧ (0 : Fin 16).val = 0 :=
  ⟨by decide, ⟨⟨0, 0, 0x80, rfl, by decide, by decide, rfl, rfl⟩, by decide⟩,
    no_cover _ _, rfl⟩

/-- A sprite over an off pixel, and one that covers none. -/
theorem witness_DrawTwiceRestores :
    ((0 : Reg) ≠ flagReg ∧ (indexed 4095 0xD011).indexBase + (1 : Fin 16).val ≤ 4096) ∧
    (Covers 0 0 [0x80] 0 0 ∧ pixelAt clearedFB 0 0 = false) ∧
    ¬∃ row col, Covers 0 0 [] row col ∧ pixelAt clearedFB row col = false :=
  ⟨by decide, ⟨⟨0, 0, 0x80, rfl, by decide, by decide, rfl, rfl⟩, by decide⟩,
    no_cover _ _⟩

/-- The hypotheses of the statement that is expected to fail hold where its conclusion does not: the one covered pixel was
on. -/
theorem witness_SecondDrawAlwaysCollides :
    (0 : Reg) ≠ flagReg ∧ (canDraw 0x80 (onePixel 0 0)).indexBase + (1 : Fin 16).val ≤ 4096 ∧
    (0 < (1 : Fin 16).val ∧ (canDraw 0x80 (onePixel 0 0)).byteAt 0x300 ≠ 0) ∧
    ∃ t u, exec (.drw 0 0 1) (canDraw 0x80 (onePixel 0 0)) = .next t ∧ exec (.drw 0 0 1) t = .next u :=
  ⟨by decide, by decide, by decide, _, _, rfl, rfl⟩

theorem witness_KeySkips :
    ((State.reset.setV 0 15).getV 0).toNat = (15 : Reg).val ∧ (State.reset.getV 0).toNat = (0 : Reg).val := by decide

theorem witness_InvalidKeyFaults :
    15 < ((State.reset.setV 0 16).getV 0).toNat ∧ 15 < ((State.reset.setV 0 255).getV 0).toNat := by decide

theorem witness_KeyWaitProtocol :
    (atWord 0xFF0A).aw = false ∧ ((waiting true).aw = true ∧ (waiting true).kr = true) ∧
    ((waiting false).aw = true ∧ (waiting false).kr = false) := by decide

theorem witness_KeyPressEndsTheWait :
    (StateInv (waiting false) ∧ (waiting false).runMode = .awaitingKey) ∧
    (StateInv (waiting true) ∧ (waiting true).runMode = .awaitingKey) :=
  ⟨⟨stateInv_waiting false, by decide⟩, stateInv_waiting true, by decide⟩

theorem witness_KeyDelivery :
    (waiting false).aw = true ∧ State.reset.aw = false ∧ (1 : Reg) ≠ 0 ∧ 15 < 16 := by decide

theorem witness_ResetValues : hostReset halted = hostReset halted ∧ (hostReset halted).fault = none := by decide

/-- The reset state, the same with a key delivered, the largest image, and the smallest that is too large. -/
theorem witness_LoaderPlacesFontAndImage :
    (StateInv State.reset ∧ State.reset.loadable = true ∧ (List.replicate 3584 (0 : Byte)).length ≤ 3584) ∧
    (∃ s, deliverKey 3 true State.reset = .ok s ∧ StateInv s ∧ s.loadable = true) ∧
    3584 < (List.replicate 3585 (0 : Byte)).length := by
  have no_fault : State.reset.fault = none := rfl
  have no_wait : State.reset.aw = false := rfl
  refine ⟨⟨stateInv_reset, rfl, by simp only [List.length_replicate]; decide⟩, ⟨_, rfl, ?_, rfl⟩,
    by simp only [List.length_replicate]; decide⟩
  exact ⟨rfl, by decide, List.forall_mem_nil _, by decide, fun h => by simp [no_wait] at h,
    fun _ h => by simp [no_fault] at h, fun _ => rfl⟩

/-- The first step from reset; a load of nothing but zeros; a key delivered. -/
theorem witness_LoadComesOnceBeforeTheFirstStep :
    [(0 : Byte)].length ≤ 3584 ∧ (StateInv State.reset ∧ ∃ t, step State.reset = .next t) ∧
    (∃ t, loadImage (Vector.replicate 80 0) [0] State.reset = .ok t) ∧ ∃ t, deliverKey 15 true State.reset = .ok t :=
  ⟨by decide, ⟨stateInv_reset, _, rfl⟩, ⟨_, rfl⟩, _, rfl⟩

end Sys2Proof.Tests
end

section
/-! The registers after reset (spec/10_state.md R26; spec/70_reset_and_hazards.md R270). -/

namespace Sys2Proof.Machine

/-- Every entry of the reset state's register file is the one replicated byte. -/
@[simp] theorem getV_reset (r : Reg) : State.reset.getV r = 0 := Vector.getElem_replicate r.isLt

/-- The host's reset keeps only the outputs and the generator's place, so its registers are the reset state's. -/
@[simp] theorem getV_hostReset (s : State) (r : Reg) : (hostReset s).getV r = State.reset.getV r := rfl

/-- Settles O57: the host's reset has the reset state's registers, and those are 0 (R26). -/
theorem resetClearsTheRegisters : Obligations.ResetClearsTheRegisters := fun s r =>
  ⟨getV_reset r, (getV_hostReset s r).trans (getV_reset r)⟩

end Sys2Proof.Machine
end

section
/-! Fetch (spec/20_memory.md R55). -/

namespace Sys2Proof.Machine

/-- Settles O7: `fetch_ok` and `fetch_error` say which of the two a fetch is, and the fetched word is the big-endian value of
its two bytes (R55). -/
theorem fetchIsBigEndianAndChecked : Obligations.FetchIsBigEndianAndChecked := fun s =>
  ⟨fun hpc => ⟨s.wordAtPc, fetch_ok.2 ⟨hpc, rfl⟩, toNat_bigEndian (s.byteAt s.pc.toNat) (s.byteAt (s.pc.toNat + 1))⟩,
    fun hpc => fetch_error.2 ⟨hpc, rfl⟩⟩

end Sys2Proof.Machine
end

section
/-! The fields of a fetched word (spec/30_encoding.md R71). -/

namespace Sys2Proof

variable (hi lo : Byte)

theorem toNat_opField_bigEndian : (opField (bigEndian hi lo)).toNat = hi.toNat / 16 := by
  have := lo.isLt
  rw [toNat_opField, toNat_bigEndian]
  omega

theorem val_xField_bigEndian : (xField (bigEndian hi lo)).val = hi.toNat % 16 := by
  have := lo.isLt
  rw [val_xField, toNat_bigEndian]
  omega

theorem val_yField_bigEndian : (yField (bigEndian hi lo)).val = lo.toNat / 16 := by
  have := lo.isLt
  rw [val_yField, toNat_bigEndian]
  omega

theorem val_nField_bigEndian : (nField (bigEndian hi lo)).val = lo.toNat % 16 := by
  rw [val_nField, toNat_bigEndian]
  omega

@[simp] theorem nnField_bigEndian : nnField (bigEndian hi lo) = lo := by
  have := lo.isLt
  apply BitVec.eq_of_toNat_eq
  rw [toNat_nnField, toNat_bigEndian]
  omega

theorem toNat_nnnField_bigEndian :
    (nnnField (bigEndian hi lo)).toNat = hi.toNat % 16 * 256 + lo.toNat := by
  have := lo.isLt
  rw [toNat_nnnField, toNat_bigEndian]
  omega

/-- Settles O1: each field is a quotient and remainder of the word's number `hi * 256 + lo`, and `lo` is below 256 (R71). -/
theorem fieldsOfTheWord : Obligations.FieldsOfTheWord := fun hi lo =>
  ⟨toNat_opField_bigEndian hi lo, val_xField_bigEndian hi lo, val_yField_bigEndian hi lo, val_nField_bigEndian hi lo,
    nnField_bigEndian hi lo, toNat_nnnField_bigEndian hi lo⟩

end Sys2Proof
end

section
/-! The timers over one step (spec/40_step_engine.md R99). -/

namespace Sys2Proof.Machine

variable {s m t : State} {i : Instr} {x : Reg}

/-! What the instructions do to the timers (R34) -/

/-- A key skip writes no timer, whether it skips or faults. -/
theorem keySkip_timers {b : Byte} {wanted : Bool} (h : keySkip i b wanted s = .next m) :
    m.dt = s.dt ∧ m.st = s.st := by
  unfold keySkip at h
  split at h <;> cases h <;> exact ⟨rfl, rfl⟩

/-- Only FX15 writes DT and only FX18 writes ST: the other instructions, on each of their paths, update other parts. -/
theorem exec_timers (h : exec i s = .next m) :
    ((∀ x, i ≠ .ldDTVx x) → m.dt = s.dt) ∧ ((∀ x, i ≠ .ldSTVx x) → m.st = s.st) := by
  cases i
  case ldDTVx x => cases h; exact ⟨fun hi => absurd rfl (hi x), fun _ => rfl⟩
  case ldSTVx x => cases h; exact ⟨fun _ => rfl, fun hi => absurd rfl (hi x)⟩
  case skp x | sknp x =>
    obtain ⟨hdt, hst⟩ := keySkip_timers h
    exact ⟨fun _ => hdt, fun _ => hst⟩
  case ldB x | ldMemVx x =>
    simp only [exec, execLdB, execLdMemVx] at h
    split at h
    · cases h; exact ⟨fun _ => rfl, fun _ => rfl⟩
    · next hw =>
      obtain ⟨-, rfl⟩ := writeRange_ok.1 hw
      cases h; exact ⟨fun _ => rfl, fun _ => rfl⟩
  case ret | call nnn | drw x y n | ldVxMem x =>
    simp only [exec, execRet, execCall, execDrw, execLdVxMem] at h
    split at h <;> cases h <;> exact ⟨fun _ => rfl, fun _ => rfl⟩
  case ldVxK x =>
    simp only [exec, execLdVxK] at h
    split at h
    · split at h <;> cases h <;> exact ⟨fun _ => rfl, fun _ => rfl⟩
    · cases h; exact ⟨fun _ => rfl, fun _ => rfl⟩
  all_goals cases h; exact ⟨fun _ => rfl, fun _ => rfl⟩

/-! What execution leaves in the timers, that of an Unknown word too (R94) -/

theorem ExecutionLeaves.exec_eq (hm : ExecutionLeaves s m) (hd : decode s.wordAtPc = .ok i) : exec i s = .next m := by
  obtain ⟨-, -, hm⟩ := hm
  rwa [hd] at hm

theorem ExecutionLeaves.eq_unknownNoOp {e : Reject} (hm : ExecutionLeaves s m) (hd : decode s.wordAtPc = .error e) :
    m = s.unknownNoOp s.wordAtPc := by
  obtain ⟨-, -, hm⟩ := hm
  rw [hd] at hm
  cases hm; rfl

theorem ExecutionLeaves.timers (hm : ExecutionLeaves s m) :
    ((∀ x, decode s.wordAtPc ≠ .ok (.ldDTVx x)) → m.dt = s.dt) ∧
      ((∀ x, decode s.wordAtPc ≠ .ok (.ldSTVx x)) → m.st = s.st) := by
  cases hd : decode s.wordAtPc with
  | ok i => simpa using exec_timers (hm.exec_eq hd)
  | error e => simp [hm.eq_unknownNoOp hd]

theorem ExecutionLeaves.dt_of_ldDTVx (hm : ExecutionLeaves s m) (hd : decode s.wordAtPc = .ok (.ldDTVx x)) :
    m.dt = s.getV x := by
  cases hm.exec_eq hd; rfl

theorem ExecutionLeaves.st_of_ldSTVx (hm : ExecutionLeaves s m) (hd : decode s.wordAtPc = .ok (.ldSTVx x)) :
    m.st = s.getV x := by
  cases hm.exec_eq hd; rfl

/-! How a step ends (R99, R103) -/

/-- A step of a state that is not Halted takes a fault and does nothing else, or completes: execution raises nothing and
phase 5 follows it. -/
theorem step_faults_or_completes (hs : s.fault = none) (ht : step s = .next t) :
    (∃ r, StepTookFault r s t) ∨
      ∃ m, ExecutionLeaves s m ∧ m.fault = none ∧ t = (m.tickTimers s.st).closeLoader := by
  obtain ⟨r, hr, -⟩ | ⟨-, -, h⟩ | ⟨e, -, hpc, hd, h⟩ | ⟨i, -, hpc, hd, h⟩ := step_cases s
  · simp [hs] at hr
  · cases ht.symm.trans h
    exact .inl ⟨_, _, tookFault_raise .., rfl⟩
  · cases ht.symm.trans h
    have hf : (s.unknownNoOp s.wordAtPc).fault = none := hs
    exact .inr ⟨_, ⟨hs, hpc, by rw [hd]; rfl⟩, hf, endStep_completed hf⟩
  · obtain ⟨m, hm, hf⟩ | ⟨r, ⟨hpc', -⟩, -, hr⟩ := exec_cases i s
    · cases ht.symm.trans (h.trans (congrArg (finishStep s) hm))
      exact .inr ⟨m, ⟨hs, hpc, by rwa [hd]⟩, hf.trans hs, endStep_completed (hf.trans hs)⟩
    · cases ht.symm.trans (h.trans (congrArg (finishStep s) hr))
      exact .inl ⟨_, stepTookFault_endStep s (tookFault_raise ..)⟩

theorem StepTookFault.fault {r : FaultRecord} (h : StepTookFault r s t) : t.fault = some r := by
  obtain ⟨u, ⟨hf, -, -⟩, rfl⟩ := h
  exact hf

theorem StepTookFault.timers {r : FaultRecord} (h : StepTookFault r s t) : t.dt = s.dt ∧ t.st = s.st := by
  obtain ⟨u, ⟨-, -, hk⟩, rfl⟩ := h
  exact ⟨hk .dt (by decide), hk .st (by decide)⟩

theorem toNat_dt_tickTimers (m : State) (st0 : Byte) : (m.tickTimers st0).dt.toNat = m.dt.toNat - 1 := by
  rw [tickTimers_dt, toNat_countDown]

theorem toNat_st_tickTimers (m : State) (st0 : Byte) : (m.tickTimers st0).st.toNat = m.st.toNat - 1 := by
  rw [tickTimers_st, toNat_countDown]

theorem tickTimers_fault (m : State) (st0 : Byte) : (m.tickTimers st0).fault = m.fault :=
  tickTimers_keeps m st0 .fault (by decide)

/-- Settles O13: a step that takes a fault keeps both timers; one that completes counts both down once, from what
execution left in them (R99). -/
theorem timersCountDownOncePerCompletedStep : Obligations.TimersCountDownOncePerCompletedStep := by
  intro s t hs ht
  obtain ⟨r, hr⟩ | ⟨m, hm, hf, rfl⟩ := step_faults_or_completes hs ht
  · exact ⟨fun _ => hr.timers, fun h => by simp [hr.fault] at h⟩
  · obtain ⟨hdt, hst⟩ := hm.timers
    refine ⟨fun h => absurd ((tickTimers_fault m s.st).trans hf) h, fun _ => ?_⟩
    simp only [closeLoader_dt, closeLoader_st, toNat_dt_tickTimers, toNat_st_tickTimers]
    exact ⟨fun h => by rw [hdt h], fun h => by rw [hst h], fun _ h => by rw [hm.dt_of_ldDTVx h],
      fun _ h => by rw [hm.st_of_ldSTVx h]⟩

end Sys2Proof.Machine
end

section
/-! The jump (spec/41_control_flow.md R110, R113). -/

namespace Sys2Proof.Machine

/-- Moving pc touches no other part. -/
theorem setPc_keeps (s : State) (w : Word) : KeepsAllBut [.pc] s (s.setPc w) := by
  intro p hp
  cases p
  case pc => simp at hp
  all_goals simp [Part.Same]

theorem exec_jp (nnn : Addr12) (s : State) : exec (.jp nnn) s = .next (s.setPc (absolute nnn)) := rfl

/-- The highest target's instruction would end past memory, so the fetch after that jump fails, whatever memory holds
(R110). -/
theorem fetch_setPc_absolute_top (s : State) : (s.setPc (absolute 0xFFF)).fetch = .error 4096 := by
  have hpc : (s.setPc (absolute 0xFFF)).pc.toNat = 4095 := toNat_absolute 0xFFF
  rw [fetch_error, hpc]
  decide

/-- Settles O27: a jump is a move of pc to its target, which is its word's low 12 bits under the digit 1 (R113). -/
theorem jumpSetsPc : Obligations.JumpSetsPc := by
  intro nnn s
  refine ⟨_, exec_jp nnn s, toNat_absolute nnn, setPc_keeps s _, toNat_wordNNN 0x1 nnn, ?_⟩
  rintro rfl
  exact fetch_setPc_absolute_top s

end Sys2Proof.Machine
end

section
/-! The register loads and the immediate add (spec/42_alu.md R141 to R143). -/

namespace Sys2Proof.Machine

/-- A register write whose result goes to `x` alone, then the default next pc (spec/40_step_engine.md R95). -/
theorem wroteReg_setV_advance (s : State) (x : Reg) (b : Byte) : WroteReg x b.toNat s (s.setV x b).advance := by
  refine ⟨by simp, fun r hr => ?_, rfl, fun p hp => ?_⟩
  · simpa using getV_setV_other s x r b (by simpa using hr)
  · cases p
    case regs | pc => simp at hp
    all_goals simp [Part.Same]

theorem exec_ldImm (x : Reg) (nn : Byte) (s : State) : exec (.ldImm x nn) s = .next (s.setV x nn).advance := rfl

theorem exec_addImm (x : Reg) (nn : Byte) (s : State) :
    exec (.addImm x nn) s = .next (s.setV x (s.getV x + nn)).advance := rfl

theorem exec_ldReg (x y : Reg) (s : State) : exec (.ldReg x y) s = .next (s.setV x (s.getV y)).advance := rfl

/-! The words of the three forms, as numbers (spec/30_encoding.md R75) -/

theorem toNat_encode_ldImm (x : Reg) (nn : Byte) :
    (encode (.ldImm x nn)).toNat = 0x6000 + 256 * x.val + nn.toNat := by
  rw [encode, toNat_wordXNN, Nat.mul_comm 256]
  rfl

theorem toNat_encode_addImm (x : Reg) (nn : Byte) :
    (encode (.addImm x nn)).toNat = 0x7000 + 256 * x.val + nn.toNat := by
  rw [encode, toNat_wordXNN, Nat.mul_comm 256]
  rfl

theorem toNat_encode_ldReg (x y : Reg) :
    (encode (.ldReg x y)).toNat = 0x8000 + 256 * x.val + 16 * y.val := by
  rw [encode, toNat_wordXYN, Nat.mul_comm 256, Nat.mul_comm 16]
  rfl

/-- Settles O34: each of the three writes one byte to Vx, through the one write of `wroteReg_setV_advance`, and the sum of
7XNN as a byte is the sum mod 256 (R141 to R143). -/
theorem loadsAndImmediateAdd : Obligations.LoadsAndImmediateAdd := by
  intro x y nn s
  have hadd : (s.getV x + nn).toNat = ((s.getV x).toNat + nn.toNat) % 256 := BitVec.toNat_add ..
  exact ⟨⟨_, exec_ldImm x nn s, wroteReg_setV_advance s x nn⟩,
    ⟨_, exec_addImm x nn s, hadd ▸ wroteReg_setV_advance s x (s.getV x + nn)⟩,
    ⟨_, exec_ldReg x y s, wroteReg_setV_advance s x (s.getV y)⟩,
    toNat_encode_ldImm x nn, toNat_encode_addImm x nn, toNat_encode_ldReg x y⟩

end Sys2Proof.Machine
end

section
/-! The load of the index register (spec/43_index_memory.md R171). -/

namespace Sys2Proof.Machine

/-- A write of I and the default next pc (spec/40_step_engine.md R95) touch no other part. -/
theorem setI_advance_keeps (s : State) (w : Word) : KeepsAllBut [.index, .pc] s (s.setI w).advance := by
  intro p hp
  cases p
  case index | pc => simp at hp
  all_goals simp [Part.Same]

theorem exec_ldI (nnn : Addr12) (s : State) : exec (.ldI nnn) s = .next (s.setI (absolute nnn)).advance := rfl

/-- Settles O39: the load is a write of I with its operand, extended with zeros, which is its word's low 12 bits under the
digit A (R171). -/
theorem loadIndex : Obligations.LoadIndex := by
  intro nnn s
  exact ⟨_, exec_ldI nnn s, toNat_absolute nnn, rfl, setI_advance_keeps s _, toNat_wordNNN 0xA nnn⟩

end Sys2Proof.Machine
end

section
/-! Decoding against encoding (spec/30_encoding.md R70 to R76). -/

namespace Sys2Proof

/-! Decode after encode (R72, R74) -/

/-- A class-0 word other than the two whole-word rows decodes to SYS (R111). -/
theorem decodeClass0_wordNNN {nnn : Addr12} (h : sysConstantOk nnn = true) :
    decodeClass0 (wordNNN 0x0 nnn) = .sys nnn := by
  simp only [sysConstantOk, Bool.and_eq_true, bne_iff_ne] at h
  obtain ⟨hcls, hret⟩ := h
  have hword {k : Addr12} (hne : nnn ≠ k) : wordNNN 0x0 nnn ≠ wordNNN 0x0 k := fun e =>
    hne (by simpa using congrArg nnnField e)
  have hcls : wordNNN 0x0 nnn ≠ 0x00E0 := hword hcls
  have hret : wordNNN 0x0 nnn ≠ 0x00EE := hword hret
  simp only [decodeClass0, hcls, hret, if_false, nnnField_wordNNN]

/-- Settles O2: the class nibble of a built word selects the instruction's class, its selector the instruction, and its
fields are the operands; a SYS word needs that it is neither CLS nor RET (R72, R74, R75). -/
theorem decodeOfEncode : Obligations.DecodeOfEncode := by
  intro i hi
  cases i
  case cls | ret => decide
  case sys nnn => simpa [encode, decode] using decodeClass0_wordNNN hi
  case jp | call | ldI | jpV0 => simp [encode, decode]
  case seImm | sneImm | ldImm | addImm | rnd => simp [encode, decode]
  case seReg | sneReg => simp [encode, decode]
  case drw x y n => simp [encode, decode, regBits]
  case ldReg | orReg | andReg | xorReg | addReg | subReg | shrReg | subnReg | shlReg =>
    simp [encode, decode, decodeClass8]
  case skp | sknp => simp [encode, decode, decodeClassE]
  all_goals simp [encode, decode, decodeClassF]

/-! Encode after decode: a word is rebuilt from its class nibble, its selector and its operand fields (R74) -/

theorem wordNNN_of_class {w : Word} {op : BitVec 4} (hop : (opField w).toNat = op.toNat) :
    wordNNN op (nnnField w) = w := by
  rw [← BitVec.eq_of_toNat_eq hop, wordNNN_fields]

theorem wordXNN_of_class {w : Word} {op : BitVec 4} (hop : (opField w).toNat = op.toNat) :
    wordXNN op (xField w) (nnField w) = w := by
  rw [← BitVec.eq_of_toNat_eq hop, wordXNN_fields]

theorem wordXYN_of_class {w : Word} {op : BitVec 4} (hop : (opField w).toNat = op.toNat) :
    wordXYN op (xField w) (yField w) (regBits (nField w)) = w := by
  rw [← BitVec.eq_of_toNat_eq hop, wordXYN_fields]

theorem wordXYN_of_selector {w : Word} {op n : BitVec 4} (hop : (opField w).toNat = op.toNat)
    (hn : (nField w).val = n.toNat) : wordXYN op (xField w) (yField w) n = w := by
  have hn : regBits (nField w) = n := BitVec.eq_of_toNat_eq hn
  rw [← hn, wordXYN_of_class hop]

theorem wordXNN_of_selector {w : Word} {op : BitVec 4} {nn : Byte} (hop : (opField w).toNat = op.toNat)
    (hnn : nnField w = nn) : wordXNN op (xField w) nn = w := by
  rw [← hnn, wordXNN_of_class hop]

theorem encode_decodeClass0 {w : Word} (hop : (opField w).toNat = (0x0 : BitVec 4).toNat) :
    encode (decodeClass0 w) = w ∧ (decodeClass0 w).wellFormed = true := by
  unfold decodeClass0
  split
  next h => exact ⟨h.symm, rfl⟩
  next hcls =>
    split
    next h => exact ⟨h.symm, rfl⟩
    next hret =>
      have hw : wordNNN 0x0 (nnnField w) = w := wordNNN_of_class hop
      have hne (k : Addr12) (hk : w ≠ wordNNN 0x0 k) : nnnField w ≠ k := fun e => hk (by rw [← e, hw])
      refine ⟨hw, ?_⟩
      simp only [Instr.wellFormed, sysConstantOk, Bool.and_eq_true, bne_iff_ne]
      exact ⟨hne 0x0E0 hcls, hne 0x0EE hret⟩

theorem encode_of_decodeClass8 {w : Word} {i : Instr} (hop : (opField w).toNat = (0x8 : BitVec 4).toNat)
    (h : decodeClass8 (xField w) (yField w) (nField w).val = .ok i) : encode i = w ∧ i.wellFormed = true := by
  unfold decodeClass8 at h
  split at h <;> cases h <;> exact ⟨wordXYN_of_selector hop ‹_›, rfl⟩

theorem encode_of_decodeClassE {w : Word} {i : Instr} (hop : (opField w).toNat = (0xE : BitVec 4).toNat)
    (h : decodeClassE (xField w) (nnField w) = .ok i) : encode i = w ∧ i.wellFormed = true := by
  unfold decodeClassE at h
  repeat' split at h
  all_goals cases h
  all_goals exact ⟨wordXNN_of_selector hop ‹_›, rfl⟩

theorem encode_of_decodeClassF {w : Word} {i : Instr} (hop : (opField w).toNat = (0xF : BitVec 4).toNat)
    (h : decodeClassF (xField w) (nnField w) = .ok i) : encode i = w ∧ i.wellFormed = true := by
  unfold decodeClassF at h
  repeat' split at h
  all_goals cases h
  all_goals exact ⟨wordXNN_of_selector hop ‹_›, rfl⟩

/-- Settles O3: class by class, the instruction holds every field of the word that its selector does not fix (R74). -/
theorem encodeOfDecode : Obligations.EncodeOfDecode := by
  intro w i h
  unfold decode at h
  split at h
  case h_1 hop => cases h; exact encode_decodeClass0 hop
  case h_2 hop | h_3 hop | h_11 hop | h_12 hop => cases h; exact ⟨wordNNN_of_class hop, rfl⟩
  case h_4 hop | h_5 hop | h_7 hop | h_8 hop | h_13 hop => cases h; exact ⟨wordXNN_of_class hop, rfl⟩
  case h_6 hop | h_10 hop =>
    split at h
    next hn => cases h; exact ⟨wordXYN_of_selector hop (congrArg Fin.val hn), rfl⟩
    next => cases h
  case h_9 hop => exact encode_of_decodeClass8 hop h
  case h_14 hop => cases h; exact ⟨wordXYN_of_class hop, rfl⟩
  case h_15 hop => exact encode_of_decodeClassE hop h
  case h_16 =>
    have hop : (opField w).toNat = (0xF : BitVec 4).toNat := by
      have := (opField w).isLt
      simp only [imp_false] at *
      show _ = 15
      omega
    exact encode_of_decodeClassF hop h

end Sys2Proof
end

section
/-! The opcode map's rows and the Unknown words (spec/30_encoding.md R75, R76). -/

namespace Sys2Proof

open Machine (rowOf)

/-! A row selects the words of its instructions (R75) -/

/-- Every instruction's word selects its row. -/
theorem rowOf_selects_encode (i : Instr) : (rowOf i).selects (encode i) := by
  cases i
  case cls => exact Laws.TableRow.cls
  case ret => exact Laws.TableRow.ret
  case sys | jp | call | ldI | jpV0 => exact wordNNN_mask ..
  case seImm | sneImm | ldImm | addImm | rnd => exact wordXNN_mask ..
  case drw => exact wordXYN_mask ..
  case seReg | sneReg => exact wordXYN_maskN ..
  case ldReg | orReg | andReg | xorReg | addReg | subReg | shrReg | subnReg | shlReg => exact wordXYN_maskN ..
  all_goals exact wordXNN_maskX ..

/-! What each kind of mask leaves of a word (R71, R75) -/

theorem class_of_mask {w : Word} {op : BitVec 4} (h : w &&& 0xF000 = op ++ 0#12) :
    (opField w).toNat = op.toNat := by
  rw [← wordNNN_fields w, wordNNN_mask, BitVec.append_left_inj] at h
  rw [h]

theorem class_selector_of_maskN {w : Word} {op n : BitVec 4} (h : w &&& 0xF00F = op ++ 0#8 ++ n) :
    (opField w).toNat = op.toNat ∧ (nField w).val = n.toNat := by
  have hzero (a b : BitVec 4) : a ++ 0#8 ++ b = wordXYN a 0 0 b := by revert a b; decide
  rw [← wordXYN_fields w, wordXYN_maskN, hzero, hzero] at h
  have hop := congrArg opField h
  have hn := congrArg nField h
  rw [opField_wordXYN, opField_wordXYN] at hop
  rw [nField_wordXYN, nField_wordXYN] at hn
  exact ⟨congrArg BitVec.toNat hop, congrArg Fin.val hn⟩

theorem class_selector_of_maskX {w : Word} {op : BitVec 4} {nn : Byte} (h : w &&& 0xF0FF = op ++ 0#4 ++ nn) :
    (opField w).toNat = op.toNat ∧ nnField w = nn := by
  have hzero (a : BitVec 4) (b : Byte) : a ++ 0#4 ++ b = wordXNN a 0 b := rfl
  rw [← wordXNN_fields w, wordXNN_maskX, hzero, hzero] at h
  have hop := congrArg opField h
  have hnn := congrArg nnField h
  rw [opField_wordXNN, opField_wordXNN] at hop
  rw [nnField_wordXNN, nnField_wordXNN] at hnn
  exact ⟨congrArg BitVec.toNat hop, hnn⟩

theorem wordXYN_of_maskN {w : Word} {op n : BitVec 4} (h : w &&& 0xF00F = op ++ 0#8 ++ n) :
    wordXYN op (xField w) (yField w) n = w := by
  obtain ⟨hop, hn⟩ := class_selector_of_maskN h
  exact wordXYN_of_selector hop hn

theorem wordXNN_of_maskX {w : Word} {op : BitVec 4} {nn : Byte} (h : w &&& 0xF0FF = op ++ 0#4 ++ nn) :
    wordXNN op (xField w) nn = w := by
  obtain ⟨hop, hnn⟩ := class_selector_of_maskX h
  exact wordXNN_of_selector hop hnn

theorem eq_of_fullMask {w v : Word} (h : w &&& 0xFFFF = v) : v = w := by
  rw [← h]
  exact BitVec.and_allOnes

/-- A word that a row selects is the word of an instruction of that row, whose operands are the word's fields. -/
theorem exists_encode_of_selects {j : Instr} {w : Word} (h : (rowOf j).selects w) :
    ∃ k, encode k = w ∧ rowOf k = rowOf j := by
  cases j
  case cls => exact ⟨.cls, eq_of_fullMask h, rfl⟩
  case ret => exact ⟨.ret, eq_of_fullMask h, rfl⟩
  case sys => exact ⟨.sys _, wordNNN_of_class (class_of_mask h), rfl⟩
  case jp => exact ⟨.jp _, wordNNN_of_class (class_of_mask h), rfl⟩
  case call => exact ⟨.call _, wordNNN_of_class (class_of_mask h), rfl⟩
  case seImm => exact ⟨.seImm _ _, wordXNN_of_class (class_of_mask h), rfl⟩
  case sneImm => exact ⟨.sneImm _ _, wordXNN_of_class (class_of_mask h), rfl⟩
  case seReg => exact ⟨.seReg _ _, wordXYN_of_maskN h, rfl⟩
  case ldImm => exact ⟨.ldImm _ _, wordXNN_of_class (class_of_mask h), rfl⟩
  case addImm => exact ⟨.addImm _ _, wordXNN_of_class (class_of_mask h), rfl⟩
  case ldReg => exact ⟨.ldReg _ _, wordXYN_of_maskN h, rfl⟩
  case orReg => exact ⟨.orReg _ _, wordXYN_of_maskN h, rfl⟩
  case andReg => exact ⟨.andReg _ _, wordXYN_of_maskN h, rfl⟩
  case xorReg => exact ⟨.xorReg _ _, wordXYN_of_maskN h, rfl⟩
  case addReg => exact ⟨.addReg _ _, wordXYN_of_maskN h, rfl⟩
  case subReg => exact ⟨.subReg _ _, wordXYN_of_maskN h, rfl⟩
  case shrReg => exact ⟨.shrReg _ _, wordXYN_of_maskN h, rfl⟩
  case subnReg => exact ⟨.subnReg _ _, wordXYN_of_maskN h, rfl⟩
  case shlReg => exact ⟨.shlReg _ _, wordXYN_of_maskN h, rfl⟩
  case sneReg => exact ⟨.sneReg _ _, wordXYN_of_maskN h, rfl⟩
  case ldI => exact ⟨.ldI _, wordNNN_of_class (class_of_mask h), rfl⟩
  case jpV0 => exact ⟨.jpV0 _, wordNNN_of_class (class_of_mask h), rfl⟩
  case rnd => exact ⟨.rnd _ _, wordXNN_of_class (class_of_mask h), rfl⟩
  case drw => exact ⟨.drw _ _ _, wordXYN_of_class (class_of_mask h), rfl⟩
  case skp => exact ⟨.skp _, wordXNN_of_maskX h, rfl⟩
  case sknp => exact ⟨.sknp _, wordXNN_of_maskX h, rfl⟩
  case ldVxDT => exact ⟨.ldVxDT _, wordXNN_of_maskX h, rfl⟩
  case ldVxK => exact ⟨.ldVxK _, wordXNN_of_maskX h, rfl⟩
  case ldDTVx => exact ⟨.ldDTVx _, wordXNN_of_maskX h, rfl⟩
  case ldSTVx => exact ⟨.ldSTVx _, wordXNN_of_maskX h, rfl⟩
  case addI => exact ⟨.addI _, wordXNN_of_maskX h, rfl⟩
  case ldF => exact ⟨.ldF _, wordXNN_of_maskX h, rfl⟩
  case ldB => exact ⟨.ldB _, wordXNN_of_maskX h, rfl⟩
  case ldMemVx => exact ⟨.ldMemVx _, wordXNN_of_maskX h, rfl⟩
  case ldVxMem => exact ⟨.ldVxMem _, wordXNN_of_maskX h, rfl⟩

/-! The one overlap: the two class-0 words that are not SYS (R75; D35) -/

/-- Only the two SYS terms with the constants of CLS and RET are not well-formed. -/
theorem not_wellFormed_iff {k : Instr} : k.wellFormed = false ↔ k = .sys 0x0E0 ∨ k = .sys 0x0EE := by
  constructor
  · intro h
    cases k
    case sys nnn => simpa [Instr.wellFormed, sysConstantOk, or_iff_not_imp_left] using h
    all_goals cases h
  · rintro (rfl | rfl) <;> decide

theorem eq_sys_of_rowOf_eq {j : Instr} {nnn : Addr12} (h : rowOf (.sys nnn) = rowOf j) : ∃ k, j = .sys k := by
  cases j
  case sys k => exact ⟨k, rfl⟩
  all_goals simp [rowOf] at h

/-- What a row that selects the word says of its decoding: the word's instruction is of that row, or the row is SYS's and the
word is CLS's or RET's. -/
theorem decode_of_selects {j : Instr} {w : Word} (h : (rowOf j).selects w) :
    ∃ i, decode w = .ok i ∧ (rowOf j = rowOf i ∨ ((rowOf i).mask = 0xFFFF ∧ ∃ nnn, j = .sys nnn)) := by
  obtain ⟨k, rfl, hrow⟩ := exists_encode_of_selects h
  cases hk : k.wellFormed with
  | true => exact ⟨k, decodeOfEncode k hk, .inl hrow.symm⟩
  | false =>
    obtain rfl | rfl := not_wellFormed_iff.1 hk
    · exact ⟨.cls, by decide, .inr ⟨rfl, eq_sys_of_rowOf_eq hrow⟩⟩
    · exact ⟨.ret, by decide, .inr ⟨rfl, eq_sys_of_rowOf_eq hrow⟩⟩

/-- Settles O4: a selected word decodes, and to the row's instruction but for CLS and RET, which SYS's row selects too; a
decoded word is the encoding of its instruction, so its instruction's row selects it (R75; D17, D35). -/
theorem decodeFollowsTheOpcodeMap : Obligations.DecodeFollowsTheOpcodeMap := by
  intro w
  refine ⟨fun ⟨j, hj⟩ => ?_, fun i hi => ⟨?_, fun j hj => ?_⟩⟩
  · obtain ⟨i, hi, -⟩ := decode_of_selects hj
    exact ⟨i, hi⟩
  · obtain ⟨rfl, -⟩ := encodeOfDecode w i hi
    exact rowOf_selects_encode i
  · obtain ⟨i', hi', hrow⟩ := decode_of_selects hj
    cases hi.symm.trans hi'
    exact hrow

/-! Unknown words (R76) -/

theorem decodeClass8_error {x y : Reg} {n : Nat} (hn : n < 16) :
    (∃ e, decodeClass8 x y n = .error e) ↔ 8 ≤ n ∧ n ≤ 13 ∨ n = 15 := by
  interval_cases n <;> simp [decodeClass8]

theorem decodeClassE_error {x : Reg} {nn : Byte} :
    (∃ e, decodeClassE x nn = .error e) ↔ nn.toNat ≠ 0x9E ∧ nn.toNat ≠ 0xA1 := by
  have hskp : nn.toNat = 0x9E ↔ nn = 0x9E := BitVec.toNat_inj (y := 0x9E#8)
  have hsknp : nn.toNat = 0xA1 ↔ nn = 0xA1 := BitVec.toNat_inj (y := 0xA1#8)
  rw [ne_eq, ne_eq, hskp, hsknp]
  unfold decodeClassE
  split_ifs <;> simp_all

theorem decodeClassF_error {x : Reg} {nn : Byte} :
    (∃ e, decodeClassF x nn = .error e) ↔
      nn.toNat ∉ [0x07, 0x0A, 0x15, 0x18, 0x1E, 0x29, 0x33, 0x55, 0x65] := by
  have hmem : nn.toNat ∈ [0x07, 0x0A, 0x15, 0x18, 0x1E, 0x29, 0x33, 0x55, 0x65] ↔
      nn ∈ [0x07, 0x0A, 0x15, 0x18, 0x1E, 0x29, 0x33, 0x55, 0x65] :=
    List.mem_map_of_injective (l := [0x07#8, 0x0A, 0x15, 0x18, 0x1E, 0x29, 0x33, 0x55, 0x65])
      (f := BitVec.toNat) fun _ _ => BitVec.eq_of_toNat_eq
  rw [hmem]
  unfold decodeClassF
  split_ifs <;> simp_all

/-- Settles O5: the classes that match a selector reject what their selector leaves out, and the other classes reject
nothing (R74, R76; D17). -/
theorem unknownWordsExactly : Obligations.UnknownWordsExactly := by
  intro w
  rw [← toNat_opField, ← val_nField, ← toNat_nnField]
  have h8 := decodeClass8_error (x := xField w) (y := yField w) (nField w).isLt
  have hE := decodeClassE_error (x := xField w) (nn := nnField w)
  have hF := decodeClassF_error (x := xField w) (nn := nnField w)
  have hlt := (opField w).isLt
  interval_cases hop : (opField w).toNat <;>
    simp [decode, hop, h8, hE, hF, ite_eq_iff]

/-- Settles O6: the decoder is run on each of the ten words (R75). -/
theorem sampleWordsDecode : Obligations.SampleWordsDecode := by
  unfold Obligations.SampleWordsDecode
  decide

end Sys2Proof
end

section
/-! What an instruction can write, once for all of them (spec/10_state.md R20 to R39): the parts of the state each form may
change, and that every other part stays, as data. The frames of the single instructions are read off from it. -/

namespace Sys2Proof.Machine

/-- The part is the same data in both states: `Part.Same`, but for registers and memory, which that compares as their readers
see them. -/
def Part.Unchanged (s t : State) : Part → Prop
  | .regs => t.v = s.v
  | .memory => t.mem = s.mem
  | p => p.Same s t

/-- Every part but those of the list is unchanged as data: the form of `KeepsAllBut` that the canonical form of memory can be
read from. -/
def KeepsDataBut (changed : List Part) (s t : State) : Prop := ∀ p, p ∉ changed → p.Unchanged s t

/-- The parts an instruction that takes no fault may write. -/
def writes : Instr → List Part
  | .sys _ => [.pc, .events]
  | .call _ | .ret => [.pc, .stack]
  | .jp _ | .jpV0 _ | .seImm _ _ | .sneImm _ _ | .seReg _ _ | .sneReg _ _ | .skp _ | .sknp _ => [.pc]
  | .ldImm _ _ | .addImm _ _ | .ldReg _ _ | .orReg _ _ | .andReg _ _ | .xorReg _ _ => [.regs, .pc]
  | .addReg _ _ | .subReg _ _ | .shrReg _ _ | .subnReg _ _ | .shlReg _ _ => [.regs, .pc]
  | .ldVxDT _ | .ldVxMem _ => [.regs, .pc]
  | .rnd _ _ => [.regs, .pc, .draws]
  | .ldI _ | .addI _ | .ldF _ => [.index, .pc]
  | .ldB _ | .ldMemVx _ => [.memory, .pc]
  | .cls => [.fb, .pc]
  | .drw _ _ _ => [.regs, .fb, .pc]
  | .ldDTVx _ => [.dt, .pc]
  | .ldSTVx _ => [.st, .pc]
  | .ldVxK _ => [.regs, .pc, .aw, .kr]

variable {s t : State} {i : Instr} {l : List Part}

theorem Part.Unchanged.same {p : Part} (h : p.Unchanged s t) : p.Same s t := by
  cases p
  case regs =>
    have h : t.v = s.v := h
    simp [Part.Same, State.getV, h]
  case memory =>
    have h : t.mem = s.mem := h
    simp [Part.Same, State.byteAt, h]
  all_goals exact h

theorem KeepsDataBut.keepsAllBut (h : KeepsDataBut l s t) : KeepsAllBut l s t := fun p hp => (h p hp).same

/-! The frame of every instruction -/

theorem aluStep_frame (s : State) (op : AluOp) (x : Reg) (b : Byte) :
    KeepsDataBut [.regs, .pc] s (s.aluStep op x b) := by
  intro p hp
  unfold State.aluStep State.writeAlu
  split <;> cases p <;> simp_all [Part.Unchanged, Part.Same]

theorem keySkip_frame {b : Byte} {wanted : Bool} (h : keySkip i b wanted s = .next t) :
    (∃ k w n, t = s.raise k w n) ∨ KeepsDataBut [.pc] s t := by
  unfold keySkip at h
  split at h <;> cases h
  · exact .inl ⟨_, _, _, rfl⟩
  · exact .inr fun p hp => by cases p <;> simp_all [Part.Unchanged, Part.Same]

/-- An instruction takes a fault, or leaves every part outside its list as it was. -/
theorem exec_frame (h : exec i s = .next t) :
    (∃ k w n, t = s.raise k w n) ∨ KeepsDataBut (writes i) s t := by
  cases i
  case ret | call nnn | drw x y n | ldVxMem x =>
    simp only [exec, execRet, execCall, execDrw, execLdVxMem] at h
    split at h <;> cases h
    · exact .inl ⟨_, _, _, rfl⟩
    · exact .inr fun p hp => by cases p <;> simp_all [writes, Part.Unchanged, Part.Same]
  case ldB x | ldMemVx x =>
    simp only [exec, execLdB, execLdMemVx] at h
    split at h
    · cases h; exact .inl ⟨_, _, _, rfl⟩
    next hw =>
      obtain ⟨-, rfl⟩ := writeRange_ok.1 hw
      cases h
      exact .inr fun p hp => by cases p <;> simp_all [writes, Part.Unchanged, Part.Same]
  case skp x | sknp x => exact keySkip_frame h
  case ldVxK x =>
    simp only [exec, execLdVxK] at h
    refine .inr fun p hp => ?_
    repeat' split at h
    all_goals cases h; cases p <;> simp_all [writes, Part.Unchanged, Part.Same]
  case addReg | subReg | shrReg | subnReg | shlReg => cases h; exact .inr (aluStep_frame _ _ _ _)
  case addImm | ldReg | orReg | andReg | xorReg => cases h; exact .inr (aluStep_frame _ _ _ _)
  all_goals
    cases h
    exact .inr fun p hp => by cases p <;> simp_all [writes, Part.Unchanged, Part.Same, State.rndWith]

/-- A part other than FAULT and the outputs is the same data wherever the instruction does not list it, a fault or not. -/
theorem exec_unchanged {p : Part} (h : exec i s = .next t) (hp : p ∉ writes i) (hf : p ≠ .fault ∧ p ≠ .events) :
    p.Unchanged s t := by
  obtain ⟨k, w, n, rfl⟩ | h := exec_frame h
  · cases p <;> simp_all [Part.Unchanged, Part.Same]
  · exact h p hp

/-- An instruction that emits nothing takes no fault, so its list is its whole frame. -/
theorem exec_keeps (h : exec i s = .next t) (hev : t.events = s.events) : KeepsAllBut (writes i) s t := by
  obtain ⟨k, w, n, rfl⟩ | h := exec_frame h
  · simp at hev
  · exact h.keepsAllBut

/-! Which instructions list a part -/

theorem stack_mem_writes : .stack ∈ writes i → i = .ret ∨ ∃ nnn, i = .call nnn := by
  cases i <;> simp [writes]

theorem memory_mem_writes : .memory ∈ writes i → ∃ x, i = .ldB x ∨ i = .ldMemVx x := by
  cases i <;> simp [writes]

theorem fb_mem_writes : .fb ∈ writes i → i = .cls ∨ ∃ x y n, i = .drw x y n := by
  cases i <;> simp [writes]

theorem index_mem_writes : .index ∈ writes i → (∃ nnn, i = .ldI nnn) ∨ ∃ x, i = .addI x ∨ i = .ldF x := by
  cases i <;> simp [writes]

theorem dt_mem_writes : .dt ∈ writes i → ∃ x, i = .ldDTVx x := by
  cases i <;> simp [writes]

theorem st_mem_writes : .st ∈ writes i → ∃ x, i = .ldSTVx x := by
  cases i <;> simp [writes]

theorem wait_mem_writes : .aw ∈ writes i ∨ .kr ∈ writes i → ∃ x, i = .ldVxK x := by
  cases i <;> simp [writes]

theorem draws_mem_writes : .draws ∈ writes i → ∃ x nn, i = .rnd x nn := by
  cases i <;> simp [writes]

theorem events_mem_writes : .events ∈ writes i → ∃ nnn, i = .sys nnn := by
  cases i <;> simp [writes]

theorem not_mem_writes (i : Instr) : .keys ∉ writes i ∧ .lk ∉ writes i ∧ .fault ∉ writes i ∧ .loadable ∉ writes i := by
  cases i <;> simp [writes]

/-- Settles O23: a part that an instruction changed is on its list, and no list has the keys or LK (R31, R33 to R36, R51). -/
theorem whoWritesWhat : Obligations.WhoWritesWhat := by
  intro i s t h
  have listed {p : Part} (hf : p ≠ .fault ∧ p ≠ .events) (hne : ¬p.Unchanged s t) : p ∈ writes i := by
    by_contra hp
    exact hne (exec_unchanged h hp hf)
  obtain ⟨hkeys, hlk, -, -⟩ := not_mem_writes i
  exact ⟨fun hne => stack_mem_writes (listed (by decide) hne), fun hne => memory_mem_writes (listed (by decide) hne),
    fun hne => fb_mem_writes (listed (by decide) hne), fun hne => index_mem_writes (listed (by decide) hne),
    fun hne => dt_mem_writes (listed (by decide) hne), fun hne => st_mem_writes (listed (by decide) hne),
    fun hne => wait_mem_writes (hne.imp (listed (p := .aw) (by decide)) (listed (p := .kr) (by decide))),
    fun hne => draws_mem_writes (listed (by decide) hne), exec_unchanged (p := .keys) h hkeys (by decide),
    exec_unchanged (p := .lk) h hlk (by decide)⟩

/-! The general registers (R23) -/

theorem getV_aluStep_other {op : AluOp} {x r : Reg} {b : Byte} (hx : r ≠ x) (hf : r ≠ flagReg) :
    (s.aluStep op x b).getV r = s.getV r := by
  simp only [State.aluStep, State.writeAlu, advance_eq, setPc_getV]
  split
  · exact getV_setV_other s x r _ hx
  · rw [getV_setFlag, if_neg hf, getV_setV_other s x r _ hx]

/-- A register outside the writes column of the instruction keeps its byte, on every path. -/
theorem getV_exec {r : Reg} (h : exec i s = .next t) (hr : ¬mayWriteReg i r) : t.getV r = s.getV r := by
  cases i
  case ldImm | addImm | ldReg | orReg | andReg | xorReg | rnd | ldVxDT => cases h; exact getV_setV_other s _ r _ hr
  case addReg | subReg | shrReg | subnReg | shlReg =>
    obtain ⟨hx, hf⟩ := not_or.1 hr
    cases h; exact getV_aluStep_other hx hf
  case ldVxK x =>
    simp only [exec, execLdVxK] at h
    repeat' split at h
    all_goals cases h
    · exact getV_setV_other s x r _ hr
    · rfl
    · rfl
  case drw x y n =>
    simp only [exec, execDrw] at h
    split at h <;> cases h
    · rfl
    · exact getV_setV_other _ flagReg r _ hr
  case ldVxMem x =>
    simp only [exec, execLdVxMem] at h
    split at h <;> cases h
    · rfl
    next bytes hb =>
      obtain ⟨-, rfl⟩ := readRange_ok.1 hb
      have hx : x.val < r.val := not_le.1 hr
      rw [advance_eq, setPc_getV, getV_setRegs_loadRegs,
        List.getD_eq_default _ _ (by rw [memBytes_length]; omega)]
  all_goals exact (exec_unchanged h (p := .regs) (by simp [writes]) (by decide)).same r

/-- Settles O24: a register outside the column keeps its byte (R23). -/
theorem onlyListedRegistersAreWritten : Obligations.OnlyListedRegistersAreWritten := by
  intro i s t h r hne
  by_contra hr
  exact hne (getV_exec h hr)

end Sys2Proof.Machine
end

section
/-! The instructions with more than one outcome, outcome by outcome: RET and CALL (spec/41_control_flow.md R112, R114), the
memory transfers and the draw (spec/43_index_memory.md R170, R174 to R176; spec/44_display.md R192), the key skips and FX0A
(spec/45_timers_keys.md R211, R212, R214). -/

namespace Sys2Proof.Machine

variable {s t : State} {i : Instr} {x y : Reg} {n : Fin 16} {nnn : Addr12}

/-- Every instruction answers a next state (R244). -/
theorem exec_next (i : Instr) (s : State) : ∃ t, exec i s = .next t := by
  obtain ⟨t, ht, -⟩ | ⟨r, -, -, hr⟩ := exec_cases i s
  · exact ⟨t, ht⟩
  · exact ⟨_, hr⟩

/-! The stack -/

theorem exec_ret_pop {rest : List Word} {a : Word} (h : s.stack = rest ++ [a]) :
    exec .ret s = .next ((s.setStack rest).setPc a) := by
  simp [exec, execRet, h]

theorem exec_ret_empty (h : s.stack = []) :
    exec .ret s = .next (s.raise .stackUnderflow (some (encode .ret)) none) := by
  simp [exec, execRet, h]

theorem exec_call_room (h : s.stack.length < 16) :
    exec (.call nnn) s = .next ((s.push (s.pc + 2)).setPc (absolute nnn)) := by
  simp [exec, execCall, Nat.not_le.2 h]

theorem exec_call_full (h : 16 ≤ s.stack.length) :
    exec (.call nnn) s = .next (s.raise .stackOverflow (some (encode (.call nnn))) none) := by
  simp [exec, execCall, h]

/-- The stack stays, or CALL pushed the address after it, or RET popped the top. -/
theorem exec_stack (h : exec i s = .next t) :
    t.stack = s.stack ∨ (s.stack.length < 16 ∧ t.stack = s.stack ++ [s.pc + 2]) ∨ ∃ a, s.stack = t.stack ++ [a] := by
  by_cases hm : .stack ∈ writes i
  · obtain rfl | ⟨nnn, rfl⟩ := stack_mem_writes hm
    · obtain hnil | ⟨rest, a, hs⟩ := List.eq_nil_or_concat' s.stack
      · cases h.symm.trans (exec_ret_empty hnil)
        exact .inl rfl
      · cases h.symm.trans (exec_ret_pop hs)
        exact .inr (.inr ⟨a, hs⟩)
    · by_cases hroom : s.stack.length < 16
      · cases h.symm.trans (exec_call_room hroom)
        exact .inr (.inl ⟨hroom, rfl⟩)
      · cases h.symm.trans (exec_call_full (Nat.le_of_not_lt hroom))
        exact .inl rfl
  · exact .inl (exec_unchanged h hm (by decide))

/-! Memory and the framebuffer -/

theorem exec_ldB_ok (h : s.indexBase + 3 ≤ 4096) :
    exec (.ldB x) s = .next (s.setMem (memSetRange s.mem s.indexBase (bcdDigits (s.getV x)))).advance := by
  have hw : s.writeRange s.indexBase (bcdDigits (s.getV x)) = _ := writeRange_ok.2 ⟨.inr h, rfl⟩
  simp only [exec, execLdB, hw]

theorem exec_ldB_fault (h : 4096 < s.indexBase + 3) :
    exec (.ldB x) s = .next (s.raise .memoryOutOfRange (some (encode (.ldB x))) (some (max s.indexBase 4096))) := by
  have hw : s.writeRange s.indexBase (bcdDigits (s.getV x)) = _ := writeRange_error.2 ⟨Nat.succ_pos 2, h, rfl⟩
  simp only [exec, execLdB, hw, raiseRange_eq]

theorem exec_ldMemVx_ok (h : s.indexBase + (x.val + 1) ≤ 4096) :
    exec (.ldMemVx x) s = .next (s.setMem (memSetRange s.mem s.indexBase (s.regsUpTo x))).advance := by
  have hw : s.writeRange s.indexBase (s.regsUpTo x) = _ := writeRange_ok.2 ⟨.inr (by rwa [regsUpTo_length]), rfl⟩
  simp only [exec, execLdMemVx, hw]

theorem exec_ldMemVx_fault (h : 4096 < s.indexBase + (x.val + 1)) :
    exec (.ldMemVx x) s =
      .next (s.raise .memoryOutOfRange (some (encode (.ldMemVx x))) (some (max s.indexBase 4096))) := by
  have hw : s.writeRange s.indexBase (s.regsUpTo x) = _ :=
    writeRange_error.2 ⟨by simp, by rwa [regsUpTo_length], rfl⟩
  simp only [exec, execLdMemVx, hw, raiseRange_eq]

theorem exec_ldVxMem_ok (h : s.indexBase + (x.val + 1) ≤ 4096) :
    exec (.ldVxMem x) s = .next (s.setRegs (loadRegs s.v (memBytes s.mem s.indexBase (x.val + 1)))).advance := by
  simp only [exec, execLdVxMem, readRange_ok.2 ⟨.inr h, rfl⟩]

theorem exec_ldVxMem_fault (h : 4096 < s.indexBase + (x.val + 1)) :
    exec (.ldVxMem x) s =
      .next (s.raise .memoryOutOfRange (some (encode (.ldVxMem x))) (some (max s.indexBase 4096))) := by
  simp only [exec, execLdVxMem, readRange_error.2 ⟨Nat.succ_pos _, h, rfl⟩, raiseRange_eq]

/-- The draw of DXYN on its own: the rows it reads, at the start its registers give (R192). -/
def State.drawn (s : State) (x y : Reg) (n : Fin 16) : Canvas :=
  drawSprite s.fb (s.startCol x) (s.startRow y) (memBytes s.mem s.indexBase n.val)

theorem exec_drw_ok (h : n.val = 0 ∨ s.indexBase + n.val ≤ 4096) :
    exec (.drw x y n) s = .next ((s.setFB (s.drawn x y n).fb).setFlag (s.drawn x y n).collided).advance := by
  simp only [exec, execDrw, readRange_ok.2 ⟨h, rfl⟩, State.drawn]

theorem exec_drw_fault (h0 : 0 < n.val) (h : 4096 < s.indexBase + n.val) :
    exec (.drw x y n) s =
      .next (s.raise .memoryOutOfRange (some (encode (.drw x y n))) (some (max s.indexBase 4096))) := by
  simp only [exec, execDrw, readRange_error.2 ⟨h0, h, rfl⟩, raiseRange_eq]

/-- Memory stays in its canonical form (spec/20_memory.md R50). -/
theorem exec_mem_wf (h : exec i s = .next t) (hwf : s.mem.wf = true) : t.mem.wf = true := by
  by_cases hm : .memory ∈ writes i
  · obtain ⟨x, rfl | rfl⟩ := memory_mem_writes hm
    · by_cases hr : s.indexBase + 3 ≤ 4096
      · cases h.symm.trans (exec_ldB_ok hr)
        exact wf_memSetRange hr hwf
      · cases h.symm.trans (exec_ldB_fault (not_le.1 hr))
        exact hwf
    · by_cases hr : s.indexBase + (x.val + 1) ≤ 4096
      · cases h.symm.trans (exec_ldMemVx_ok hr)
        exact wf_memSetRange (by rwa [regsUpTo_length]) hwf
      · cases h.symm.trans (exec_ldMemVx_fault (not_le.1 hr))
        exact hwf
  · have hmem : t.mem = s.mem := exec_unchanged h hm (by decide)
    rwa [hmem]

/-! Keys -/

theorem keySkip_key {b : Byte} {k : Reg} {wanted : Bool} (h : b.toNat = k.val) :
    keySkip i b wanted s = .next (s.skipIf (s.keys[k] == wanted)) := by
  simp only [keySkip, keyNumber_some.2 h]

theorem keySkip_fault {b : Byte} {wanted : Bool} (h : 15 < b.toNat) :
    keySkip i b wanted s = .next (s.raise .invalidKey (some (encode i)) (some b.toNat)) := by
  simp only [keySkip, keyNumber_none.2 h]

theorem exec_ldVxK_start (h : s.aw = false) : exec (.ldVxK x) s = .next (s.setWait true false) := by
  simp [exec, execLdVxK, h]

theorem exec_ldVxK_complete (h : s.aw = true) (hkr : s.kr = true) :
    exec (.ldVxK x) s = .next ((s.setV x (keyByte s.lk)).setWait false false).advance := by
  simp [exec, execLdVxK, h, hkr]

theorem exec_ldVxK_wait (h : s.aw = true) (hkr : s.kr = false) : exec (.ldVxK x) s = .next s := by
  simp [exec, execLdVxK, h, hkr]

end Sys2Proof.Machine
end

section
/-! The invariant over a step (spec/10_state.md R32, R36; spec/60_exceptions.md R243, R252). -/

namespace Sys2Proof.Machine

variable {s t m : State} {i : Instr}

/-! The end of a step, on the parts the invariant speaks of -/

theorem endStep_mem (s0 s : State) : (endStep s0 s).mem = s.mem := by
  unfold endStep State.tickTimers
  split
  · rfl
  · dsimp only
    split <;> rfl

theorem endStep_pc (s0 s : State) : (endStep s0 s).pc = s.pc := endStep_keeps s0 s .pc (by decide)

theorem endStep_stack (s0 s : State) : (endStep s0 s).stack = s.stack := endStep_keeps s0 s .stack (by decide)

theorem endStep_aw (s0 s : State) : (endStep s0 s).aw = s.aw := endStep_keeps s0 s .aw (by decide)

theorem endStep_kr (s0 s : State) : (endStep s0 s).kr = s.kr := endStep_keeps s0 s .kr (by decide)

theorem endStep_fault (s0 s : State) : (endStep s0 s).fault = s.fault := endStep_keeps s0 s .fault (by decide)

theorem endStep_wordAtPc (s0 s : State) : (endStep s0 s).wordAtPc = s.wordAtPc := by
  simp only [State.wordAtPc, State.byteAt, endStep_mem, endStep_pc]

/-! What the invariant says of a state outside a wait, and what makes it hold of one -/

theorem StateInv.kr_false (hs : StateInv s) (haw : s.aw = false) : s.kr = false := by
  rw [← Bool.not_eq_true] at haw ⊢
  exact fun hkr => haw (hs.kr_in_wait hkr)

/-- The engine waits only where the word at pc is FX0A. -/
theorem StateInv.aw_false (hs : StateInv s) (hd : ∀ x, decode s.wordAtPc ≠ .ok (.ldVxK x)) : s.aw = false := by
  rw [← Bool.not_eq_true]
  intro haw
  obtain ⟨-, -, x, hx⟩ := hs.wait_at_fx0a haw
  exact hd x hx

/-- A state that runs, and may load no more, meets the invariant if its memory and its stack do. -/
theorem stateInv_of_running (hmem : t.mem.wf = true)
    (hstack : t.stack.length ≤ 16 ∧ ∀ a ∈ t.stack, 2 ≤ a.toNat ∧ a.toNat ≤ 4096) (haw : t.aw = false)
    (hkr : t.kr = false) (hf : t.fault = none) (hl : t.loadable = false) : StateInv t where
  mem_wf := hmem
  stack_bounded := hstack.1
  stack_entries := hstack.2
  kr_in_wait := by simp [hkr]
  wait_at_fx0a := by simp [haw]
  fault_at_pc := by simp [hf]
  loader_at_reset := by simp [hl]

/-- Taking a fault outside a wait keeps the invariant. -/
theorem stateInv_raise (hs : StateInv s) (haw : s.aw = false) {r : FaultRecord} (hr : r.fits s.pc) :
    StateInv (s.raise r.kind r.word r.info).closeLoader where
  mem_wf := hs.mem_wf
  stack_bounded := hs.stack_bounded
  stack_entries := hs.stack_entries
  kr_in_wait := hs.kr_in_wait
  wait_at_fx0a := fun h => by simp [haw] at h
  fault_at_pc := by
    rintro r' h
    cases h
    exact ⟨rfl, hr.2⟩
  loader_at_reset := fun h => by simp at h

/-- The timers and the outputs are no matter of the invariant. -/
theorem stateInv_endStep (s0 : State) (hm : StateInv m.closeLoader) : StateInv (endStep s0 m) := by
  constructor
  · rw [endStep_mem]; exact hm.mem_wf
  · rw [endStep_stack]; exact hm.stack_bounded
  · rw [endStep_stack]; exact hm.stack_entries
  · rw [endStep_aw, endStep_kr]; exact hm.kr_in_wait
  · rw [endStep_aw, endStep_fault, endStep_pc, endStep_wordAtPc]; exact hm.wait_at_fx0a
  · rw [endStep_fault, endStep_pc]; exact hm.fault_at_pc
  · simp

/-! An instruction keeps the invariant -/

theorem exec_stack_ok (hs : StateInv s) (hpc : s.pc.toNat ≤ 4094) (h : exec i s = .next m) :
    m.stack.length ≤ 16 ∧ ∀ a ∈ m.stack, 2 ≤ a.toNat ∧ a.toNat ≤ 4096 := by
  have hlen := hs.stack_bounded
  have hent := hs.stack_entries
  obtain hk | ⟨hroom, hpush⟩ | ⟨a, hpop⟩ := exec_stack h
  · rw [hk]
    exact ⟨hlen, hent⟩
  · rw [hpush, List.length_append]
    refine ⟨hroom, fun a ha => ?_⟩
    obtain ha | ha := List.mem_append.1 ha
    · exact hent a ha
    · obtain rfl := List.mem_singleton.1 ha
      have hret : (s.pc + 2).toNat = s.pc.toNat + 2 := by bv_omega
      omega
  · rw [hpop, List.length_append] at hlen
    exact ⟨by omega, fun b hb => hent b (hpop ▸ List.mem_append_left _ hb)⟩

/-- An instruction run during a wait is the FX0A of that wait: it completes, or stays as it is. -/
theorem exec_keeps_inv_waiting (hs : StateInv s) (haw : s.aw = true) (hd : decode s.wordAtPc = .ok i)
    (h : exec i s = .next m) : StateInv m.closeLoader := by
  obtain ⟨hf, -, x, hx⟩ := hs.wait_at_fx0a haw
  cases hd.symm.trans hx
  cases hkr : s.kr with
  | true =>
    cases h.symm.trans (exec_ldVxK_complete haw hkr)
    exact stateInv_of_running hs.mem_wf ⟨hs.stack_bounded, hs.stack_entries⟩ rfl rfl hf rfl
  | false =>
    cases h.symm.trans (exec_ldVxK_wait haw hkr)
    exact { hs with loader_at_reset := fun h => by simp at h }

theorem exec_keeps_inv_running (hs : StateInv s) (hf : s.fault = none) (hpc : s.pc.toNat ≤ 4094)
    (haw : s.aw = false) (hd : decode s.wordAtPc = .ok i) (h : exec i s = .next m) : StateInv m.closeLoader := by
  obtain ⟨m', hm, hmf⟩ | ⟨r, hr, -, hm⟩ := exec_cases i s <;> cases h.symm.trans hm
  · by_cases hwait : .aw ∈ writes i ∨ .kr ∈ writes i
    · obtain ⟨x, rfl⟩ := wait_mem_writes hwait
      cases h.symm.trans (exec_ldVxK_start haw)
      exact { hs with
        kr_in_wait := fun _ => rfl
        wait_at_fx0a := fun _ => ⟨hf, hpc, x, hd⟩
        loader_at_reset := fun h => by simp at h }
    · obtain ⟨hnaw, hnkr⟩ := not_or.1 hwait
      have haw' : m.aw = s.aw := exec_unchanged h hnaw (by decide)
      have hkr' : m.kr = s.kr := exec_unchanged h hnkr (by decide)
      have hmem := exec_mem_wf h hs.mem_wf
      have hstack := exec_stack_ok hs hpc h
      exact stateInv_of_running hmem hstack (haw'.trans haw) (hkr'.trans (hs.kr_false haw)) (hmf.trans hf) rfl
  · exact stateInv_raise hs haw hr

/-- Settles O18: in each of the four ways a step goes, what execution leaves meets the invariant once no load may come, and
the step's end touches nothing the invariant speaks of. -/
theorem stepKeepsInv : Obligations.StepKeepsInv := by
  intro s t hs ht
  obtain ⟨r, -, h⟩ | ⟨-, hpc, h⟩ | ⟨e, hf, hpc, hd, h⟩ | ⟨i, hf, hpc, hd, h⟩ := step_cases s
  · cases ht.symm.trans h
    exact hs
  · cases ht.symm.trans h
    have haw : s.aw = false := by
      rw [← Bool.not_eq_true]
      intro haw
      obtain ⟨-, hle, -⟩ := hs.wait_at_fx0a haw
      omega
    exact stateInv_raise hs haw (r := ⟨.memoryOutOfRange, s.pc, none, some (max s.pc.toNat 4096)⟩)
      ⟨rfl, _, rfl, le_max_right _ _⟩
  · cases ht.symm.trans h
    have haw := hs.aw_false (by simp [hd])
    exact stateInv_endStep s (stateInv_of_running hs.mem_wf ⟨hs.stack_bounded, hs.stack_entries⟩ haw
      (hs.kr_false haw) hf rfl)
  · obtain ⟨m, hm⟩ := exec_next i s
    cases ht.symm.trans (h.trans (congrArg (finishStep s) hm))
    apply stateInv_endStep s
    cases haw : s.aw with
    | true => exact exec_keeps_inv_waiting hs haw hd hm
    | false => exact exec_keeps_inv_running hs hf hpc haw hd hm

end Sys2Proof.Machine
end

section
/-! The step as a whole: how it ends, its run mode and its faults (spec/40_step_engine.md R90 to R103; spec/60_exceptions.md
R243 to R252). -/

namespace Sys2Proof.Machine

variable {s t m : State} {i : Instr}

/-! The run mode (spec/10_state.md R37) -/

theorem runMode_eq_halted : s.runMode = .halted ↔ ∃ r, s.fault = some r := by
  unfold State.runMode
  cases s.fault <;> cases s.aw <;> simp

theorem runMode_eq_awaitingKey : s.runMode = .awaitingKey ↔ s.fault = none ∧ s.aw = true := by
  unfold State.runMode
  cases s.fault <;> cases s.aw <;> simp

theorem runMode_eq_running : s.runMode = .running ↔ s.fault = none ∧ s.aw = false := by
  unfold State.runMode
  cases s.fault <;> cases s.aw <;> simp

theorem endStep_runMode (s0 s : State) : (endStep s0 s).runMode = s.runMode := by
  simp only [State.runMode, endStep_fault, endStep_aw]

/-! How a step goes on from what execution left -/

theorem step_exec (hs : s.fault = none) (hpc : s.pc.toNat ≤ 4094) (hd : decode s.wordAtPc = .ok i)
    (h : exec i s = .next m) : step s = .next (endStep s m) :=
  (step_instr hs hpc hd).trans (congrArg (finishStep s) h)

theorem ExecutionLeaves.step_eq (hm : ExecutionLeaves s m) : step s = .next (endStep s m) := by
  obtain ⟨hs, hpc, -⟩ := id hm
  cases hd : decode s.wordAtPc with
  | ok i => exact step_exec hs hpc hd (hm.exec_eq hd)
  | error e =>
    rw [hm.eq_unknownNoOp hd]
    exact step_unknown hs hpc hd

/-- Settles O8: above 4094 the fetch fails, and its fault is the whole step (R92, R243, R244). -/
theorem fetchFault : Obligations.FetchFault := fun _ hs hpc =>
  ⟨_, step_fetchFault hs hpc, _, tookFault_raise .., rfl⟩

/-- Settles O9: a fetched instruction is run and the end of the step follows it, phase 5 where it took no fault (R103). -/
theorem stepRunsTheDecodedInstruction : Obligations.StepRunsTheDecodedInstruction := by
  rintro s i ⟨hs, hpc, hd⟩
  obtain ⟨t, ht⟩ := exec_next i s
  refine ⟨t, ht, step_exec hs hpc hd ht, endStep_completed, fun hf => ?_, endStep_keeps s t⟩
  obtain ⟨r, hr⟩ := Option.ne_none_iff_exists'.1 hf
  exact endStep_faulted hr

/-- Settles O11: Halted is a recorded fault, at which a step stops at once (R91). -/
theorem haltedStepChangesNothing : Obligations.HaltedStepChangesNothing := by
  intro s h
  obtain ⟨r, hr⟩ := runMode_eq_halted.1 h
  exact step_halted hr

/-- Settles O12: each of the four ways a step goes answers a next state, an instruction by `exec_next` (R244, R246). -/
theorem stepAlwaysAnswersNext : Obligations.StepAlwaysAnswersNext := by
  intro s
  obtain ⟨r, -, h⟩ | ⟨-, -, h⟩ | ⟨e, -, -, -, h⟩ | ⟨i, -, -, -, h⟩ := step_cases s
  · exact ⟨_, h⟩
  · exact ⟨_, h⟩
  · exact ⟨_, h⟩
  · obtain ⟨m, hm⟩ := exec_next i s
    exact ⟨endStep s m, h.trans (congrArg (finishStep s) hm)⟩

/-! The fault of a step (R243) -/

/-- A step that ends in a fault took it, and its record fits the instruction at pc and holds the fetched word, or none where
the fetch failed. -/
theorem step_fault {r : FaultRecord} (hs : s.fault = none) (ht : step s = .next t) (hr : t.fault = some r) :
    r.fits s.pc ∧ StepTookFault r s t ∧
      (s.pc.toNat ≤ 4094 ∧ r.word = some s.wordAtPc ∨ 4094 < s.pc.toNat ∧ r.word = none) := by
  obtain ⟨r', hr', -⟩ | ⟨-, hpc, h⟩ | ⟨e, -, hpc, hd, h⟩ | ⟨i, -, hpc, hd, h⟩ := step_cases s
  · simp [hs] at hr'
  · cases ht.symm.trans h
    cases hr
    exact ⟨⟨rfl, _, rfl, le_max_right _ _⟩, ⟨_, tookFault_raise .., rfl⟩, .inr ⟨hpc, rfl⟩⟩
  · cases ht.symm.trans h
    rw [endStep_fault] at hr
    cases hs.symm.trans hr
  · obtain ⟨m, hm, hf⟩ | ⟨r', hfit, hw, hm⟩ := exec_cases i s <;> cases ht.symm.trans (step_exec hs hpc hd hm)
    · rw [endStep_fault, hf] at hr
      cases hs.symm.trans hr
    · have took := stepTookFault_endStep s (tookFault_raise s r'.kind r'.word r'.info)
      rw [← hfit.1] at took
      cases hr.symm.trans took.fault
      obtain ⟨hword, -⟩ := encodeOfDecode _ i hd
      exact ⟨hfit, took, .inl ⟨hpc, hword ▸ hw⟩⟩

/-- Settles O20: the record is the one `step_fault` gives, and it names pc (R243 to R245; D14). -/
theorem faultsArePrecise : Obligations.FaultsArePrecise := by
  intro s t r hs ht hr
  obtain ⟨hfit, took, -⟩ := step_fault hs ht hr
  exact ⟨hfit.1, hfit, took⟩

/-- Settles O21: the two ranges of pc are the two cases of `step_fault` (R243). -/
theorem faultRecordsTheFetchedWord : Obligations.FaultRecordsTheFetchedWord := by
  intro s t r hs ht hr
  obtain ⟨-, -, ⟨hpc, hw⟩ | ⟨hpc, hw⟩⟩ := step_fault hs ht hr
  · exact ⟨fun _ => hw, fun h => absurd hpc (not_le.2 h)⟩
  · exact ⟨fun h => absurd hpc (not_lt.2 h), fun _ => hw⟩

/-! The run modes from step to step (R252) -/

/-- In a wait, a step completes the FX0A at pc if a press was delivered, and runs it in place if not. -/
theorem step_awaitingKey (hs : StateInv s) (haw : s.aw = true) :
    ∃ x, decode s.wordAtPc = .ok (.ldVxK x) ∧
      (s.kr = true → step s = .next (endStep s ((s.setV x (keyByte s.lk)).setWait false false).advance)) ∧
      (s.kr = false → step s = .next (endStep s s)) := by
  obtain ⟨hf, hpc, x, hx⟩ := hs.wait_at_fx0a haw
  exact ⟨x, hx, fun hkr => step_exec hf hpc hx (exec_ldVxK_complete haw hkr),
    fun hkr => step_exec hf hpc hx (exec_ldVxK_wait haw hkr)⟩

/-- Only FX0A starts a wait. -/
theorem ExecutionLeaves.wait_starts (hm : ExecutionLeaves s m) (haw : s.aw = false) (haw' : m.aw = true) :
    ∃ x, decode s.wordAtPc = .ok (.ldVxK x) := by
  cases hd : decode s.wordAtPc with
  | ok i =>
    by_cases hw : .aw ∈ writes i
    · obtain ⟨x, rfl⟩ := wait_mem_writes (.inl hw)
      exact ⟨x, rfl⟩
    · have hk : m.aw = s.aw := exec_unchanged (hm.exec_eq hd) hw (by decide)
      simp [hk, haw] at haw'
  | error e => simp [hm.eq_unknownNoOp hd, haw] at haw'

/-- Settles O22: Halted by `step_halted`, a wait by `step_awaitingKey`, and a wait that starts by what execution left (R252). -/
theorem runModeTransitions : Obligations.RunModeTransitions := by
  intro s t hs ht
  refine ⟨fun hh => ?_, fun hw => ?_, fun hrun hw => ?_⟩
  · obtain ⟨r, hr⟩ := runMode_eq_halted.1 hh
    cases ht.symm.trans (step_halted hr)
    exact hh
  · obtain ⟨hf, haw⟩ := runMode_eq_awaitingKey.1 hw
    obtain ⟨x, -, hdone, hstay⟩ := step_awaitingKey hs haw
    cases hkr : s.kr with
    | true =>
      cases ht.symm.trans (hdone hkr)
      rw [endStep_runMode]
      exact runMode_eq_running.2 ⟨hf, rfl⟩
    | false =>
      cases ht.symm.trans (hstay hkr)
      rw [endStep_runMode]
      exact hw
  · obtain ⟨hf, haw⟩ := runMode_eq_running.1 hrun
    obtain ⟨hf', haw'⟩ := runMode_eq_awaitingKey.1 hw
    obtain ⟨r, hr⟩ | ⟨m, hm, -, rfl⟩ := step_faults_or_completes hf ht
    · simp [hr.fault] at hf'
    · have hk : ((m.tickTimers s.st).closeLoader).aw = m.aw := tickTimers_keeps m s.st .aw (by decide)
      exact hm.wait_starts haw (hk.symm.trans haw')

end Sys2Proof.Machine
end

section
/-! The outputs of a step (spec/40_step_engine.md R90, R100; spec/60_exceptions.md R248, R261). -/

namespace Sys2Proof.Machine

variable {s t m : State} {i : Instr}

theorem soundStopDue_iff {st0 stm st1 : Byte} :
    soundStopDue st0 stm st1 = true ↔ st1 = 0 ∧ (st0 ≠ 0 ∨ stm ≠ 0) := by
  simp [soundStopDue]

theorem countDown_eq_zero {b : Byte} : countDown b = 0 ↔ b = 0 ∨ b = 1 := by
  have hb (c : Byte) : b = c ↔ b.toNat = c.toNat := BitVec.toNat_inj.symm
  rw [← BitVec.toNat_inj, toNat_countDown, hb 0, hb 1]
  simp only [BitVec.ofNat_eq_ofNat, BitVec.toNat_ofNat]
  omega

/-- A timer that execution left alone reaches 0 in the step exactly from 1. -/
theorem soundStopDue_countDown {b : Byte} : soundStopDue b b (countDown b) = true ↔ b = 1 := by
  rw [soundStopDue_iff, countDown_eq_zero, or_self]
  constructor
  · rintro ⟨h | h, h0⟩
    · exact absurd h h0
    · exact h
  · rintro rfl
    decide

/-! What execution emits -/

/-- An instruction that takes no fault emits nothing, but for the report of SYS. -/
theorem ExecutionLeaves.events (hm : ExecutionLeaves s m) (hf : m.fault = none) :
    m.events = s.events ∨ ∃ w, m.events = .report (.unknown w s.pc) :: s.events := by
  cases hd : decode s.wordAtPc with
  | ok i =>
    have h := hm.exec_eq hd
    obtain ⟨k, w, n, rfl⟩ | hk := exec_frame h
    · simp at hf
    · by_cases he : .events ∈ writes i
      · obtain ⟨nnn, rfl⟩ := events_mem_writes he
        cases h
        exact .inr ⟨_, rfl⟩
      · exact .inl (hk .events he)
  | error e => simp [hm.eq_unknownNoOp hd]

theorem StepTookFault.events {r : FaultRecord} (h : StepTookFault r s t) :
    t.events = .report (.fault r) :: s.events := by
  obtain ⟨u, ⟨-, he, -⟩, rfl⟩ := h
  exact he

/-! What a step emits -/

/-- The end of a step adds the sound-stop signal where it is due, and nothing otherwise. -/
theorem tickTimers_events_cases (m : State) (st0 : Byte) :
    (m.tickTimers st0).events = .soundStop :: m.events ∨ (m.tickTimers st0).events = m.events := by
  rw [tickTimers_events]
  split
  · exact .inl rfl
  · exact .inr rfl

/-- Settles O15: a fault's step emits its report; any other step emits the report of its execution, if there is one, and
then the sound-stop signal, if it is due (R90, R261). -/
theorem outputsOfOneStep : Obligations.OutputsOfOneStep := by
  intro s t ht
  cases hs : s.fault with
  | some r =>
    cases ht.symm.trans (step_halted hs)
    exact ⟨[], rfl, .inl rfl⟩
  | none =>
    obtain ⟨r, hr⟩ | ⟨m, hm, hf, rfl⟩ := step_faults_or_completes hs ht
    · exact ⟨[_], hr.events, .inr (.inr (.inl ⟨r, rfl, hr.fault⟩))⟩
    · obtain he | ⟨w, he⟩ := hm.events hf <;> obtain h | h := tickTimers_events_cases m s.st <;> rw [he] at h
      · exact ⟨[.soundStop], h, .inr (.inl rfl)⟩
      · exact ⟨[], h, .inl rfl⟩
      · exact ⟨[.soundStop, .report (.unknown w s.pc)], h, .inr (.inr (.inr (.inr ⟨w, rfl⟩)))⟩
      · exact ⟨[.report (.unknown w s.pc)], h, .inr (.inr (.inr (.inl ⟨w, rfl⟩)))⟩

/-- Settles O14: phase 5 adds the signal exactly where `soundStopDue` says (R100; D22). -/
theorem soundStopExactlyAtZero : Obligations.SoundStopExactlyAtZero := by
  intro s m hm hf
  have hst : (m.tickTimers s.st).closeLoader.st = countDown m.st := tickTimers_st m s.st
  have hev : (m.tickTimers s.st).closeLoader.events = _ := tickTimers_events m s.st
  refine ⟨_, hm.step_eq, ?_⟩
  rw [endStep_completed hf, hst, hev, ← soundStopDue_iff]
  exact ⟨fun h => if_pos h, fun h => if_neg h⟩

/-! The reported no-op (R77, R248) -/

theorem step_reportedNoOp (hs : s.fault = none) (hpc : s.pc.toNat ≤ 4094)
    (hd : (∃ e, decode s.wordAtPc = .error e) ∨ ∃ nnn, decode s.wordAtPc = .ok (.sys nnn)) :
    step s = .next (endStep s (s.unknownNoOp s.wordAtPc)) := by
  obtain ⟨e, he⟩ | ⟨nnn, hsys⟩ := hd
  · exact step_unknown hs hpc he
  · obtain ⟨hw, -⟩ := encodeOfDecode _ _ hsys
    exact step_exec hs hpc hsys (by rw [← hw]; rfl)

theorem unknownNoOp_keeps (s : State) (w : Word) : KeepsAllBut [.pc, .events] s (s.unknownNoOp w) := by
  intro p hp
  cases p <;> simp_all [Part.Same]

theorem KeepsAllBut.trans {l l' : List Part} {u : State} (h : KeepsAllBut l s t) (h' : KeepsAllBut l' t u) :
    KeepsAllBut (l ++ l') s u := by
  intro p hp
  rw [List.mem_append, not_or] at hp
  have h1 := h p hp.1
  have h2 := h' p hp.2
  cases p
  case regs | memory => exact fun a => (h2 a).trans (h1 a)
  all_goals exact h2.trans h1

/-- Settles O10: an Unknown and a SYS word are run as the same no-op, which leaves both timers to the end of the step (R77,
R248, R99, R100; D22). -/
theorem unknownAndSysWordsAreReportedNoOps : Obligations.UnknownAndSysWordsAreReportedNoOps := by
  intro s hs hpc hd
  have hf : (s.unknownNoOp s.wordAtPc).fault = none := hs
  have hkeeps := (unknownNoOp_keeps s s.wordAtPc).trans (endStep_keeps s _)
  refine ⟨_, step_reportedNoOp hs hpc hd, endStep_pc .., ?_, ?_, ?_, ?_, fun p hp => hkeeps p (by simp_all)⟩
  · rw [endStep_completed hf]
    exact toNat_dt_tickTimers _ _
  · rw [endStep_completed hf]
    exact toNat_st_tickTimers _ _
  · rw [endStep_completed hf, closeLoader_events, tickTimers_events]
    simp only [unknownNoOp_eq, setPc_st, emit_st, soundStopDue_countDown]
    split <;> rfl
  · rw [endStep_runMode]
    rfl

end Sys2Proof.Machine
end

section
/-! What is not read: the outputs, by no step, and the keys and ST, by no instruction but EX9E and EXA1 (spec/10_state.md R34,
R35; spec/60_exceptions.md R261). -/

namespace Sys2Proof.Machine

variable {s t m : State} {i : Instr}

theorem keySkip_ignores {b : Byte} {wanted : Bool} {ks : Vector Bool 16} (c : Byte) (ev : List Event)
    (hk : ks = s.keys) :
    ∃ t new, keySkip i b wanted s = .next t ∧ t.events = new ++ s.events ∧
      keySkip i b wanted { s with keys := ks, st := c, events := ev } =
        .next { t with keys := ks, st := c, events := new ++ ev } := by
  subst hk
  unfold keySkip
  cases keyNumber b with
  | none => exact ⟨_, [_], rfl, rfl, rfl⟩
  | some k => exact ⟨_, [], rfl, rfl, rfl⟩

/-- With other keys, another ST and other outputs before, an instruction that neither reads the keys nor writes ST does the
same and emits the same. -/
theorem exec_ignores (i : Instr) (s : State) {ks : Vector Bool 16} (b : Byte) (ev : List Event)
    (hk : ks = s.keys ∨ ∀ x, i ≠ .skp x ∧ i ≠ .sknp x) (hst : ∀ x, i ≠ .ldSTVx x) :
    ∃ t new, exec i s = .next t ∧ t.events = new ++ s.events ∧
      exec i { s with keys := ks, st := b, events := ev } =
        .next { t with keys := ks, st := b, events := new ++ ev } := by
  cases i
  case ldSTVx x => exact absurd rfl (hst x)
  case skp x => exact keySkip_ignores b ev (hk.resolve_right fun h => (h x).1 rfl)
  case sknp x => exact keySkip_ignores b ev (hk.resolve_right fun h => (h x).2 rfl)
  case sys => exact ⟨_, [_], rfl, rfl, rfl⟩
  case ret =>
    simp only [exec, execRet]
    cases s.stack.getLast? with
    | none => exact ⟨_, [_], rfl, rfl, rfl⟩
    | some a => exact ⟨_, [], rfl, rfl, rfl⟩
  case call nnn =>
    simp only [exec, execCall]
    split
    · exact ⟨_, [_], rfl, rfl, rfl⟩
    · exact ⟨_, [], rfl, rfl, rfl⟩
  case ldVxK x =>
    simp only [exec, execLdVxK]
    split
    · split <;> exact ⟨_, [], rfl, rfl, rfl⟩
    · exact ⟨_, [], rfl, rfl, rfl⟩
  case ldB x =>
    by_cases h : s.indexBase + 3 ≤ 4096
    · exact ⟨_, [], exec_ldB_ok h, rfl, exec_ldB_ok h⟩
    · exact ⟨_, [_], exec_ldB_fault (not_le.1 h), rfl, exec_ldB_fault (not_le.1 h)⟩
  case ldMemVx x =>
    by_cases h : s.indexBase + (x.val + 1) ≤ 4096
    · exact ⟨_, [], exec_ldMemVx_ok h, rfl, exec_ldMemVx_ok h⟩
    · exact ⟨_, [_], exec_ldMemVx_fault (not_le.1 h), rfl, exec_ldMemVx_fault (not_le.1 h)⟩
  case ldVxMem x =>
    by_cases h : s.indexBase + (x.val + 1) ≤ 4096
    · exact ⟨_, [], exec_ldVxMem_ok h, rfl, exec_ldVxMem_ok h⟩
    · exact ⟨_, [_], exec_ldVxMem_fault (not_le.1 h), rfl, exec_ldVxMem_fault (not_le.1 h)⟩
  case drw x y n =>
    by_cases h : n.val = 0 ∨ s.indexBase + n.val ≤ 4096
    · exact ⟨_, [], exec_drw_ok h, rfl, exec_drw_ok h⟩
    · obtain ⟨h0, h⟩ := not_or.1 h
      have h0 := Nat.pos_of_ne_zero h0
      exact ⟨_, [_], exec_drw_fault h0 (not_le.1 h), rfl, exec_drw_fault h0 (not_le.1 h)⟩
  all_goals exact ⟨_, [], rfl, rfl, rfl⟩

/-- Settles O25: `exec_ignores`, with the outputs as they are (R34, R35). -/
theorem keysAndSoundTimerAreNotRead : Obligations.KeysAndSoundTimerAreNotRead := by
  intro i s t keys b hi h
  obtain ⟨t', new, ht, hev, h'⟩ := exec_ignores i s b s.events (ks := keys)
    (.inr fun x => ⟨(hi x).1, (hi x).2.1⟩) fun x => (hi x).2.2
  cases h.symm.trans ht
  rwa [← hev] at h'

/-- The outputs before an instruction change nothing of it: `exec_ignores`, with the keys and ST as they are. -/
theorem exec_events (i : Instr) (s : State) (before : List Event) :
    ∃ t new, exec i s = .next t ∧ t.events = new ++ s.events ∧
      exec i { s with events := before } = .next { t with events := new ++ before } := by
  by_cases hi : ∃ x, i = .ldSTVx x
  · obtain ⟨x, rfl⟩ := hi
    exact ⟨_, [], rfl, rfl, rfl⟩
  · have hst : ∀ x, i ≠ .ldSTVx x := fun x hx => hi ⟨x, hx⟩
    obtain ⟨t, new, ht, hev, h⟩ := exec_ignores i s s.st before (.inl rfl) hst
    have hkeys : t.keys = s.keys := exec_unchanged (p := .keys) ht (not_mem_writes i).1 (by decide)
    exact ⟨t, new, ht, hev, by rw [h, ← hkeys, ← (exec_timers ht).2 hst]⟩

/-- Nor do the outputs before the step change what its end does. -/
theorem endStep_events {new : List Event} (before : List Event) (hm : m.events = new ++ s.events) :
    ∃ new', (endStep s m).events = new' ++ s.events ∧
      endStep { s with events := before } { m with events := new ++ before } =
        { endStep s m with events := new' ++ before } := by
  unfold endStep State.tickTimers
  dsimp only
  split
  · exact ⟨new, hm, rfl⟩
  · split
    · exact ⟨.soundStop :: new, congrArg _ hm, rfl⟩
    · exact ⟨new, hm, rfl⟩

/-- Settles O16: each of the four ways a step goes is the same with other outputs before, by `exec_events` and
`endStep_events` where an instruction is run (R261). -/
theorem outputsAreNeverRead : Obligations.OutputsAreNeverRead := by
  intro s before
  obtain ⟨r, hs, -⟩ | ⟨hs, hpc, -⟩ | ⟨e, hs, hpc, hd, -⟩ | ⟨i, hs, hpc, hd, -⟩ := step_cases s
  · exact ⟨_, _, [], step_halted hs, step_halted hs, rfl, rfl⟩
  · exact ⟨_, _, [_], step_fetchFault hs hpc, step_fetchFault hs hpc, rfl, rfl⟩
  · obtain ⟨new, hev, h⟩ := endStep_events (s := s) (m := s.unknownNoOp s.wordAtPc) (new := [_]) before rfl
    exact ⟨_, _, new, step_unknown hs hpc hd, step_unknown hs hpc hd, hev, h⟩
  · obtain ⟨m, new, hm, hev, hm'⟩ := exec_events i s before
    obtain ⟨new', hev', h⟩ := endStep_events before hev
    exact ⟨_, _, new', step_exec hs hpc hd hm, step_exec hs hpc hd hm', hev', h⟩

end Sys2Proof.Machine
end

section
/-! The host's operations: reset, key delivery and the loader (spec/45_timers_keys.md R217; spec/70_reset_and_hazards.md R270
to R277). -/

namespace Sys2Proof.Machine

variable {s t : State}

/-! Reset (R270) -/

/-- The reset state meets the invariant, whatever keys, outputs and draws stand in it. -/
theorem stateInv_reset_with (ks : Vector Bool 16) (ev : List Event) (n : Nat) :
    StateInv { State.reset with keys := ks, events := ev, draws := n } where
  mem_wf := reset_mem_wf
  stack_bounded := Nat.zero_le _
  stack_entries := List.forall_mem_nil _
  kr_in_wait := id
  wait_at_fx0a := nofun
  fault_at_pc := nofun
  loader_at_reset := fun _ => rfl

/-- Settles O17: the reset state is the one with its own keys, outputs and draws (R41). -/
theorem resetMeetsInv : Obligations.ResetMeetsInv := stateInv_reset_with _ _ _

/-- Settles O58: the host's reset is the reset state but for the outputs and the draws, and every other part is the value
written in it (R41, R270). -/
theorem resetValues : Obligations.ResetValues := by
  intro s t ht
  obtain ⟨ev, n, rfl⟩ : ∃ ev n, t = { State.reset with events := ev, draws := n } := by
    obtain rfl | rfl := ht
    · exact ⟨[], 0, rfl⟩
    · exact ⟨s.events, s.draws, rfl⟩
  exact ⟨getV_reset, rfl, rfl, rfl, rfl, rfl, pixelAt_clearedFB, fun k => Vector.getElem_replicate k.isLt, rfl, rfl, rfl,
    fun _ => rfl, rfl, rfl, rfl, rfl, rfl⟩

/-! Key delivery (R217) -/

theorem deliverKey_latches {k : Reg} (haw : s.aw = true) :
    deliverKey k.val true s = .ok { s with kr := true, lk := k } := by
  simp [deliverKey, haw]

theorem deliverKey_sets {k : Reg} {down : Bool} (h : s.aw = false ∨ down = false) :
    deliverKey k.val down s = .ok { s with keys := s.keys.set k down } := by
  have h : ¬(s.aw && down) = true := by
    obtain h | h := h <;> simp [h]
  simp [deliverKey, h]

theorem deliverKey_refuses {k : Nat} {down : Bool} (h : 15 < k) : deliverKey k down s = .error .noSuchKey := by
  simp [deliverKey, Nat.not_lt.2 h]

/-- A delivery that is not refused latches a press in a wait, or changes the keys. -/
theorem deliverKey_cases {k : Nat} {down : Bool} (h : deliverKey k down s = .ok t) :
    (s.aw = true ∧ ∃ j, t = { s with kr := true, lk := j }) ∨ ∃ ks, t = { s with keys := ks } := by
  unfold deliverKey at h
  split at h
  · split at h <;> cases h
    next hw => exact .inl ⟨(Bool.and_eq_true_iff.1 hw).1, _, rfl⟩
    next => exact .inr ⟨_, rfl⟩
  · cases h

theorem deliverKey_loadable {k : Nat} {down : Bool} (h : deliverKey k down s = .ok t) : t.loadable = s.loadable := by
  obtain ⟨-, j, rfl⟩ | ⟨ks, rfl⟩ := deliverKey_cases h <;> rfl

/-- Settles O56: the three outcomes of a delivery (R217, R263; D19). -/
theorem keyDelivery : Obligations.KeyDelivery := by
  intro s down
  refine ⟨fun k haw hdown => ?_, fun k h => ?_, fun k hk => deliverKey_refuses hk⟩
  · subst hdown
    refine ⟨_, deliverKey_latches haw, rfl, rfl, fun p hp => ?_⟩
    cases p
    case kr | lk => simp at hp
    case regs | memory => exact fun _ => rfl
    all_goals rfl
  · refine ⟨_, deliverKey_sets h, by simp, fun j hj => ?_, fun p hp => ?_⟩
    · exact Vector.getElem_set_ne k.isLt j.isLt fun e => hj (Fin.ext e.symm)
    · cases p
      case keys => simp at hp
      case regs | memory => exact fun _ => rfl
      all_goals rfl

theorem stateInv_deliverKey {k : Nat} {down : Bool} (hs : StateInv s) (h : deliverKey k down s = .ok t) :
    StateInv t := by
  obtain ⟨haw, j, rfl⟩ | ⟨ks, rfl⟩ := deliverKey_cases h
  · have not_loadable : s.loadable ≠ true := fun hl => by
      have no_wait : s.aw = false := congrArg State.aw (hs.loader_at_reset hl)
      simp [no_wait] at haw
    exact { hs with
      kr_in_wait := fun _ => haw
      loader_at_reset := fun hl => absurd hl not_loadable }
  · exact { hs with
      loader_at_reset := fun hl => congrArg (fun u : State => { u with keys := ks }) (hs.loader_at_reset hl) }

/-! The loader (R274, R275) -/

theorem loadImage_ok {font : Vector Byte 80} {image : List Byte} (himg : image.length ≤ 3584) (hl : s.loadable = true) :
    loadImage font image s = .ok (s.setMem (loadedMemory s.mem font image)).closeLoader := by
  simp [loadImage, Nat.not_lt.2 himg, hl]

theorem loadImage_tooLarge {font : Vector Byte 80} {image : List Byte} (himg : 3584 < image.length) :
    loadImage font image s = .error .imageTooLarge := by
  simp [loadImage, himg]

theorem loadImage_closed {font : Vector Byte 80} {image : List Byte} (himg : image.length ≤ 3584)
    (hl : s.loadable = false) : loadImage font image s = .error .notJustAfterReset := by
  simp [loadImage, Nat.not_lt.2 himg, hl]

theorem loadImage_cases {font : Vector Byte 80} {image : List Byte} (h : loadImage font image s = .ok t) :
    image.length ≤ 3584 ∧ s.loadable = true ∧ t = (s.setMem (loadedMemory s.mem font image)).closeLoader := by
  unfold loadImage at h
  split at h
  · cases h
  next himg =>
    split at h <;> cases h
    next hl => exact ⟨Nat.not_lt.1 himg, hl, rfl⟩

theorem wf_loadedFont {m : Memory} (font : Vector Byte 80) (hm : m.wf = true) :
    (memSetRange m Config.fontBase font.toList).wf = true :=
  wf_memSetRange (by simp) hm

/-- What the loader leaves at each address. -/
theorem memGet_loadedMemory {m : Memory} {font : Vector Byte 80} {image : List Byte} (hm : m.wf = true)
    (himg : image.length ≤ 3584) (a : Nat) :
    memGet (loadedMemory m font image) a =
      if 512 ≤ a ∧ a < 512 + image.length then image.getD (a - 512) 0
      else if a < 80 then font.toList.getD a 0 else memGet m a := by
  rw [loadedMemory, memGet_memSetRange (by simp; omega) (wf_loadedFont font hm), memGet_memSetRange (by simp) hm]
  simp

/-- Where the invariant holds, a state that may still load has nothing in memory. -/
theorem StateInv.mem_of_loadable (hs : StateInv s) (hl : s.loadable = true) : s.mem = [] :=
  congrArg State.mem (hs.loader_at_reset hl)

theorem stateInv_loadImage {font : Vector Byte 80} {image : List Byte} (hs : StateInv s)
    (h : loadImage font image s = .ok t) : StateInv t := by
  obtain ⟨himg, hl, rfl⟩ := loadImage_cases h
  have hreset := hs.loader_at_reset hl
  have haw : s.aw = false := congrArg State.aw hreset
  have hf : s.fault = none := congrArg State.fault hreset
  exact stateInv_of_running (wf_memSetRange (by simp; omega) (wf_loadedFont font hs.mem_wf))
    ⟨hs.stack_bounded, hs.stack_entries⟩ haw (hs.kr_false haw) hf rfl

/-- Settles O19: each operation keeps what the invariant says (R217, R270, R274). -/
theorem hostOperationsKeepInv : Obligations.HostOperationsKeepInv := fun s _ hs =>
  ⟨stateInv_reset_with _ s.events s.draws, fun _ _ h => stateInv_deliverKey hs h, fun _ _ h => stateInv_loadImage hs h⟩

/-- Settles O59: memory was empty, so what the loader leaves at an address is the font's byte, the image's, or 0 (R274, R275,
R277; D27). -/
theorem loaderPlacesFontAndImage : Obligations.LoaderPlacesFontAndImage := by
  refine fun font image s => ⟨fun hs hl himg => ?_, loadImage_tooLarge⟩
  have hbyte (a : Nat) := memGet_loadedMemory (font := font) hs.mem_wf himg a
  have hzero (a : Nat) : memGet s.mem a = 0 := by rw [hs.mem_of_loadable hl]; rfl
  refine ⟨_, loadImage_ok himg hl, fun a ha => ?_, fun a ha ha' => ?_, fun a ha => ?_, rfl, fun p hp => ?_⟩
  · rw [closeLoader_byteAt, setMem_byteAt, hbyte, if_neg (by omega), if_pos ha]
  · rw [closeLoader_byteAt, setMem_byteAt, hbyte, if_neg (by omega), if_neg (by omega), hzero]
  · rw [closeLoader_byteAt, setMem_byteAt, hbyte]
    split
    · rfl
    next hout => rw [if_neg (by omega), hzero, List.getD_eq_default _ _ (by omega)]
  · cases p <;> simp_all [Part.Same]

/-- After a step no load may come, a step in Halted too: a Halted state is not the reset state. -/
theorem step_loadable (hs : StateInv s) (h : step s = .next t) : t.loadable = false := by
  obtain ⟨r, hf, h'⟩ | ⟨-, -, h'⟩ | ⟨e, -, -, -, h'⟩ | ⟨i, hf, hpc, hd, -⟩ := step_cases s
  · cases h.symm.trans h'
    rw [← Bool.not_eq_true]
    intro hl
    have no_fault : s.fault = none := congrArg State.fault (hs.loader_at_reset hl)
    simp [no_fault] at hf
  · cases h.symm.trans h'
    rfl
  · cases h.symm.trans h'
    exact endStep_loadable ..
  · obtain ⟨m, hm⟩ := exec_next i s
    cases h.symm.trans (step_exec hf hpc hd hm)
    exact endStep_loadable ..

/-- Settles O60: a step and a load close the loader, a key delivery leaves it, and the host's reset opens it (R246, R274;
D27). -/
theorem loadComesOnceBeforeTheFirstStep : Obligations.LoadComesOnceBeforeTheFirstStep := by
  intro font image s t himg
  refine ⟨fun hs h => loadImage_closed himg (step_loadable hs h), fun _ _ h => ?_,
    fun _ _ h => deliverKey_loadable h, rfl⟩
  obtain ⟨-, -, rfl⟩ := loadImage_cases h
  exact loadImage_closed himg rfl

/-! The end of a wait (R214, R217, R265) -/

/-- Settles O55: the press is latched, so the next step completes the FX0A at pc (R214, R217, R252; D19, D20). -/
theorem keyPressEndsTheWait : Obligations.KeyPressEndsTheWait := by
  intro s k hs hw
  obtain ⟨hf, haw⟩ := runMode_eq_awaitingKey.1 hw
  have hu := deliverKey_latches (k := k) haw
  obtain ⟨x, hx, hdone, -⟩ := step_awaitingKey (stateInv_deliverKey hs hu) haw
  have hend := endStep_keeps { s with kr := true, lk := k }
    ((State.setV { s with kr := true, lk := k } x (keyByte k)).setWait false false).advance
  refine ⟨x, _, _, hx, hu, hdone rfl, ?_, endStep_pc .., ?_, hend .keys (by decide)⟩
  · have hV := hend .regs (by decide) x
    rw [hV]
    simp [toNat_keyByte]
  · rw [endStep_runMode]
    exact runMode_eq_running.2 ⟨hf, rfl⟩

end Sys2Proof.Machine
end

section
/-! Control flow (spec/41_control_flow.md R110 to R120). -/

namespace Sys2Proof.Machine

variable {s t u : State} {d : Nat}

/-- Settles O26: SYS is the no-op that reports its word, whose number is its constant (R111). -/
theorem sysReportsAndGoesOn : Obligations.SysReportsAndGoesOn := by
  intro nnn s
  have hw : encode (.sys nnn) = BitVec.ofNat 16 nnn.toNat := by
    have := nnn.isLt
    apply BitVec.eq_of_toNat_eq
    rw [encode, toNat_wordNNN, BitVec.toNat_ofNat, Nat.mod_eq_of_lt (by omega)]
    simp
  refine ⟨s.unknownNoOp (encode (.sys nnn)), rfl, rfl, ?_, unknownNoOp_keeps s _⟩
  rw [← hw]
  rfl

/-- Settles O28: the jump's target is the exact sum (R119; D13). -/
theorem indexedJumpIsExact : Obligations.IndexedJumpIsExact := fun nnn s =>
  ⟨s.setPc (s.indexedByV0 nnn), rfl, toNat_indexedByV0 s nnn, setPc_keeps s _⟩

/-- Settles O33: each skip is a move of pc on its condition, and no other part (R115 to R118; D3). -/
theorem registerSkips : Obligations.RegisterSkips := by
  intro x y nn s
  refine ⟨⟨_, rfl, ?_, setPc_keeps s _⟩, ⟨_, rfl, ?_, setPc_keeps s _⟩, ⟨_, rfl, ?_, setPc_keeps s _⟩,
    ⟨_, rfl, ?_, setPc_keeps s _⟩⟩
  all_goals simp

/-! CALL and RET (R112, R114) -/

/-- Settles O29: `exec_call_room`, and CALL's list of parts is its frame (R114; D2, D23). -/
theorem callPushesReturnAddress : Obligations.CallPushesReturnAddress := fun nnn _ h =>
  ⟨_, exec_call_room h, rfl, toNat_absolute nnn, exec_keeps (exec_call_room h) rfl⟩

/-- Settles O30: `exec_ret_pop`, and RET's list of parts is its frame (R112; D2). -/
theorem retPopsIntoPc : Obligations.RetPopsIntoPc := fun _ _ _ h =>
  ⟨_, exec_ret_pop h, rfl, rfl, exec_keeps (exec_ret_pop h) rfl⟩

/-- Settles O31: both faults are taken by `State.raise`, which does nothing else (R112, R114, R244; D14, D23). -/
theorem stackFaults : Obligations.StackFaults := fun _ s =>
  ⟨fun h => ⟨_, exec_call_full h.ge, tookFault_raise s _ _ _⟩, fun h => ⟨_, exec_ret_empty h, tookFault_raise s _ _ _⟩⟩

/-! The stack over a run (R120) -/

/-- A step leaves the stack, pushes one entry or pops one. -/
theorem step_stack (h : step s = .next t) :
    t.stack = s.stack ∨ (∃ a, t.stack = s.stack ++ [a]) ∨ ∃ a, s.stack = t.stack ++ [a] := by
  obtain ⟨r, -, h'⟩ | ⟨-, -, h'⟩ | ⟨e, -, -, -, h'⟩ | ⟨i, hf, hpc, hd, -⟩ := step_cases s
  · cases h.symm.trans h'
    exact .inl rfl
  · cases h.symm.trans h'
    exact .inl rfl
  · cases h.symm.trans h'
    exact .inl (endStep_stack ..)
  · obtain ⟨m, hm⟩ := exec_next i s
    cases h.symm.trans (step_exec hf hpc hd hm)
    rw [endStep_stack]
    exact (exec_stack hm).imp_right (Or.imp_left fun ⟨_, hpush⟩ => ⟨_, hpush⟩)

theorem deliverKey_stack {k : Nat} {down : Bool} (h : deliverKey k down s = .ok t) : t.stack = s.stack := by
  obtain ⟨-, j, rfl⟩ | ⟨ks, rfl⟩ := deliverKey_cases h <;> rfl

/-- While a run never leaves fewer entries than it began with, those it began with stay at the bottom of the stack. -/
theorem RunAbove.keeps_bottom (hs : s.stack.length = d) (h : RunAbove d s t) :
    d ≤ t.stack.length ∧ s.stack <+: t.stack := by
  induction h with
  | none hd => exact ⟨hd, List.prefix_rfl⟩
  | @more t u _ hstep hd ih =>
    obtain ⟨-, hpre⟩ := ih
    refine ⟨hd, ?_⟩
    obtain hk | ⟨a, hpush⟩ | ⟨a, hpop⟩ := step_stack hstep
    · rwa [hk]
    · rw [hpush]
      exact hpre.trans (List.prefix_append _ _)
    · rw [hpop] at hpre
      exact List.prefix_of_prefix_length_le hpre (List.prefix_append _ _) (hs ▸ hd)
  | key _ hkey ih => rwa [deliverKey_stack hkey]

/-- Settles O32: the CALL's return address is the top of the stack where the run begins, the run keeps that stack at the
bottom, and at the same depth it is the whole stack, which RET pops (R112, R114, R120; D2). -/
theorem callReturnRoundTrip : Obligations.CallReturnRoundTrip := by
  rintro nnn s t u ⟨hf, hpc, hd⟩ hroom ht hrun ⟨hf', hpc', hd'⟩ hlen
  cases ht.symm.trans (step_exec hf hpc hd (exec_call_room hroom))
  have hpushed : (endStep s ((s.push (s.pc + 2)).setPc (absolute nnn))).stack = s.stack ++ [s.pc + 2] :=
    endStep_stack ..
  obtain ⟨-, hpre⟩ := hrun.keeps_bottom (by rw [hpushed, List.length_append]; rfl)
  rw [hpushed] at hpre
  have hstack : u.stack = s.stack ++ [s.pc + 2] := (hpre.eq_of_length (by rw [hlen, List.length_append]; rfl)).symm
  exact ⟨_, step_exec hf' hpc' hd' (exec_ret_pop hstack), endStep_pc .., endStep_stack ..⟩

end Sys2Proof.Machine
end

section
/-! The ALU and the random byte (spec/42_alu.md R144 to R156). -/

namespace Sys2Proof.Machine

variable {s : State} {x y : Reg}

/-! Writes without a flag -/

theorem exec_orReg : exec (.orReg x y) s = .next (s.setV x (s.getV x ||| s.getV y)).advance := rfl

theorem exec_andReg : exec (.andReg x y) s = .next (s.setV x (s.getV x &&& s.getV y)).advance := rfl

theorem exec_xorReg : exec (.xorReg x y) s = .next (s.setV x (s.getV x ^^^ s.getV y)).advance := rfl

/-- Settles O35: one register write each, of the bitwise result (R144 to R146; D7). -/
theorem logicOperations : Obligations.LogicOperations := fun x y s =>
  ⟨⟨_, exec_orReg, BitVec.toNat_or (s.getV x) (s.getV y) ▸ wroteReg_setV_advance s x _⟩,
    ⟨_, exec_andReg, BitVec.toNat_and (s.getV x) (s.getV y) ▸ wroteReg_setV_advance s x _⟩,
    ⟨_, exec_xorReg, BitVec.toNat_xor (s.getV x) (s.getV y) ▸ wroteReg_setV_advance s x _⟩⟩

/-- Settles O38: the drawn byte is whatever `Config.randomByte` gives (R156; D24). -/
theorem randomByteIsMasked : Obligations.RandomByteIsMasked := by
  intro x nn s
  have h : exec (.rnd x nn) s = .next (s.rndWith x nn (Config.randomByte s.draws)) := rfl
  refine ⟨_, h, ?_, rfl, rfl, fun r hr => getV_exec h (by simpa [mayWriteReg] using hr), exec_keeps h rfl⟩
  simp [State.rndWith]

/-! Writes with a flag -/

/-- An ALU operation with a flag writes its result to Vx and then the flag to VF (R140, R153). -/
theorem wroteRegAndFlag_aluStep {op : AluOp} {b res : Byte} {f : Bool} (h : alu op (s.getV x) b = (res, some f)) :
    WroteRegAndFlag x res.toNat (flagByte f).toNat s (s.aluStep op x b) := by
  have hv (r : Reg) : (s.aluStep op x b).getV r = ((s.setV x res).setFlag f).getV r := by
    rw [State.aluStep, h, writeAlu_some, advance_eq, setPc_getV]
  refine ⟨fun hx => ?_, ?_, fun r hr => ?_, aluStep_pc s op x b, aluStep_keeps s op x b⟩
  · rw [hv, getV_setFlag, if_neg hx, getV_setV_same]
  · rw [hv, getV_setFlag, if_pos rfl]
  · simp only [List.mem_cons, List.not_mem_nil, or_false, not_or] at hr
    exact getV_aluStep_other hr.1 hr.2

theorem toNat_flagByte (p : Prop) [Decidable p] : (flagByte (decide p)).toNat = if p then 1 else 0 := by
  by_cases hp : p <;> simp [flagByte, hp]

theorem toNat_sub_byte (a b : Byte) : (a - b).toNat = (256 + a.toNat - b.toNat) % 256 := by
  have := b.isLt
  rw [BitVec.toNat_sub]
  omega

/-- The bit a right shift drops is the remainder by 2 (R149). -/
theorem toNat_flagByte_lowBit (a : Byte) : (flagByte (lowBit a)).toNat = a.toNat % 2 := by
  rw [lowBit, BitVec.getLsbD, Nat.testBit_zero, toNat_flagByte]
  split <;> omega

/-- The bit a left shift drops is the quotient by 128 (R151). -/
theorem toNat_flagByte_highBit (a : Byte) : (flagByte (highBit a)).toNat = a.toNat / 128 := by
  have := a.isLt
  rw [highBit, BitVec.getLsbD, Nat.testBit_eq_decide_div_mod_eq, toNat_flagByte]
  split <;> omega

/-- Settles O36: results and flags in exact arithmetic, through the one write of `wroteRegAndFlag_aluStep` (R147, R148, R150;
D4, D5). -/
theorem addAndSubtractWithFlag : Obligations.AddAndSubtractWithFlag := by
  intro x y s
  refine ⟨⟨_, rfl, ?_⟩, ⟨_, rfl, ?_⟩, ⟨_, rfl, ?_⟩⟩
  · rw [← toNat_flagByte, ← BitVec.toNat_add]
    exact wroteRegAndFlag_aluStep rfl
  · rw [← toNat_flagByte, ← toNat_sub_byte]
    exact wroteRegAndFlag_aluStep rfl
  · rw [← toNat_flagByte, ← toNat_sub_byte]
    exact wroteRegAndFlag_aluStep rfl

/-- Settles O37: the same for the shifts, whose second operand is the constant 0 and not Vy (R149, R151; D4, D6). -/
theorem shiftsWithFlag : Obligations.ShiftsWithFlag := by
  intro x y s
  refine ⟨⟨_, rfl, ?_⟩, ⟨_, rfl, ?_⟩⟩
  · have hres : (s.getV x >>> 1).toNat = (s.getV x).toNat / 2 := by
      rw [BitVec.toNat_ushiftRight, Nat.shiftRight_eq_div_pow]
    rw [← toNat_flagByte_lowBit, ← hres]
    exact wroteRegAndFlag_aluStep rfl
  · have hres : (s.getV x <<< 1).toNat = 2 * (s.getV x).toNat % 256 := by
      rw [BitVec.toNat_shiftLeft, Nat.shiftLeft_eq, Nat.mul_comm]
    rw [← toNat_flagByte_highBit, ← hres]
    exact wroteRegAndFlag_aluStep rfl

end Sys2Proof.Machine
end

section
/-! The index register and the memory transfers (spec/43_index_memory.md R170 to R177; spec/20_memory.md R61, R63). -/

namespace Sys2Proof.Machine

variable {s t : State} {x : Reg}

theorem exec_addI : exec (.addI x) s = .next (s.setI (s.indexPlus x)).advance := rfl

theorem exec_ldF : exec (.ldF x) s = .next (s.setI (glyphAddress (s.getV x))).advance := rfl

/-- Settles O40: two writes of I (R172, R173; D9, D10, D13). -/
theorem indexArithmetic : Obligations.IndexArithmetic := fun x s =>
  ⟨⟨_, exec_addI, toNat_indexPlus s x, rfl, setI_advance_keeps s _⟩,
    ⟨_, exec_ldF, toNat_glyphAddress (s.getV x), rfl, setI_advance_keeps s _⟩⟩

/-! The stores -/

/-- What every byte reads after a store of a run of bytes. -/
theorem byteAt_store {lo : Nat} {bytes : List Byte} (hwf : s.mem.wf = true) (hr : lo + bytes.length ≤ 4096) (a : Nat) :
    (s.setMem (memSetRange s.mem lo bytes)).advance.byteAt a =
      if lo ≤ a ∧ a < lo + bytes.length then bytes.getD (a - lo) 0 else s.byteAt a :=
  memGet_memSetRange hr hwf a

theorem byteAt_store_in {lo k : Nat} {bytes : List Byte} (hwf : s.mem.wf = true) (hr : lo + bytes.length ≤ 4096)
    (hk : k < bytes.length) :
    (s.setMem (memSetRange s.mem lo bytes)).advance.byteAt (lo + k) = bytes.getD k 0 := by
  rw [byteAt_store hwf hr, if_pos (by omega), Nat.add_sub_cancel_left]

theorem store_keepsBytesOutside {lo : Nat} {bytes : List Byte} (hwf : s.mem.wf = true)
    (hr : lo + bytes.length ≤ 4096) :
    KeepsBytesOutside lo bytes.length s (s.setMem (memSetRange s.mem lo bytes)).advance := by
  intro a ha
  rw [byteAt_store hwf hr, if_neg (by omega)]

/-- Settles O41: the run stored is that of the three digits (R174). -/
theorem decimalStore : Obligations.DecimalStore := by
  intro x s hwf hr
  have hdigit {k : Nat} (hk : k < 3) := byteAt_store_in (bytes := bcdDigits (s.getV x)) hwf hr hk
  have houtside := store_keepsBytesOutside (bytes := bcdDigits (s.getV x)) hwf hr
  have hexec := exec_ldB_ok (x := x) hr
  refine ⟨_, hexec, ?_, ?_, ?_, houtside, rfl, exec_keeps hexec rfl⟩
  · exact (congrArg BitVec.toNat (hdigit (k := 0) (by decide))).trans (by simp [bcdDigits])
  · exact (congrArg BitVec.toNat (hdigit (k := 1) (by decide))).trans (by simp [bcdDigits])
  · exact (congrArg BitVec.toNat (hdigit (k := 2) (by decide))).trans (by simp [bcdDigits])

/-- Settles O42: the run stored is V0..Vx (R175; D8). -/
theorem blockStore : Obligations.BlockStore := by
  intro x s hwf hr
  have hlen := regsUpTo_length s x
  have hexec := exec_ldMemVx_ok hr
  rw [← hlen] at hr
  refine ⟨_, hexec, fun k hk => ?_, hlen ▸ store_keepsBytesOutside hwf hr, rfl, exec_keeps hexec rfl⟩
  have hk' : k.val ≤ x.val := hk
  rw [byteAt_store_in hwf hr (by omega), regsUpTo_getD s hk]

/-- Settles O43: the bytes read are those from I up, and they go to V0..Vx (R176; D8). -/
theorem blockLoad : Obligations.BlockLoad := by
  intro x s hr
  have hexec := exec_ldVxMem_ok hr
  refine ⟨_, hexec, fun k hk => ?_, fun k hk => getV_exec hexec (not_le.2 hk), by simp, exec_keeps hexec (by simp)⟩
  have hk' : k.val < x.val + 1 := Nat.lt_succ_of_le hk
  rw [advance_eq, setPc_getV, getV_setRegs_loadRegs, List.getD_eq_getElem?_getD, memBytes_getElem?, if_pos hk']
  rfl

/-- Settles O44: the bytes loaded are those `blockStore` says were stored (R61, R175, R176). -/
theorem blockStoreThenLoad : Obligations.BlockStoreThenLoad := by
  intro x s t u hwf hr ht hmem hi
  obtain ⟨t', ht', hstored, -, -, hkeep⟩ := blockStore x s hwf hr
  cases ht.symm.trans ht'
  have hbase : u.indexBase = s.indexBase := by
    have hi' : t.i = s.i := hkeep .index (by decide)
    rw [State.indexBase, hi, hi']
    rfl
  obtain ⟨v, hv, hloaded, -⟩ := blockLoad x u (hbase ▸ hr)
  refine ⟨v, hv, fun k hk => ?_⟩
  rw [hloaded k hk, State.byteAt, hbase, hmem]
  exact hstored k hk

/-- Settles O45: the fetch reads the two bytes `blockStore` says were stored, and its range ends inside memory (R63, R279;
D26). -/
theorem fetchSeesStoredBytes : Obligations.FetchSeesStoredBytes := by
  intro x k j s t u hwf hr ht hj hjx hmem hpc
  obtain ⟨t', ht', hstored, -⟩ := blockStore x s hwf hr
  cases ht.symm.trans ht'
  have hjx' : j.val ≤ x.val := hjx
  have hbyte {r : Reg} (hrx : r ≤ x) : u.byteAt (s.indexBase + r.val) = s.getV r := by
    rw [State.byteAt, hmem]
    exact hstored r hrx
  have hkx : k ≤ x := Fin.le_def.2 (by omega)
  rw [fetch_ok, State.wordAtPc, hpc, Nat.add_assoc, ← hj, hbyte hkx, hbyte hjx]
  exact ⟨by omega, rfl⟩

/-- Settles O46: each out-of-range transfer is `State.raise`, which does nothing else (R54, R170, R192; D14). -/
theorem rangeFaults : Obligations.RangeFaults := fun _ _ _ s =>
  ⟨fun h => ⟨_, exec_ldB_fault h, tookFault_raise s _ _ _⟩, fun h => ⟨_, exec_ldMemVx_fault h, tookFault_raise s _ _ _⟩,
    fun h => ⟨_, exec_ldVxMem_fault h, tookFault_raise s _ _ _⟩,
    fun h0 h => ⟨_, exec_drw_fault h0 h, tookFault_raise s _ _ _⟩⟩

end Sys2Proof.Machine
end

section
/-! The framebuffer (spec/44_display.md R190 to R197). -/

namespace Sys2Proof.Machine

variable {f : Framebuffer} {rows : List Byte} {x0 y0 : Nat} {row : Fin 32} {col : Fin 64}

theorem exec_cls (s : State) : exec .cls s = .next (s.setFB clearedFB).advance := rfl

/-- Settles O47: every pixel of the cleared framebuffer is off (R191). -/
theorem clearScreen : Obligations.ClearScreen := fun s =>
  ⟨_, exec_cls s, pixelAt_clearedFB, rfl, exec_keeps (exec_cls s) rfl⟩

/-! A whole sprite, in terms of the pixels it covers (R192, R195) -/

theorem pixelAt_drawSprite_of_covers (hlen : rows.length ≤ 32) (h : Covers x0 y0 rows row col) :
    pixelAt (drawSprite f x0 y0 rows).fb row col = !pixelAt f row col := by
  obtain ⟨hpix, -⟩ := foldl_togglePixel _ (nodup_spritePixels x0 y0 hlen) { fb := f, collided := false }
  exact (hpix row col).trans (if_pos (mem_spritePixels.2 h))

theorem pixelAt_drawSprite_of_not_covers (hlen : rows.length ≤ 32) (h : ¬Covers x0 y0 rows row col) :
    pixelAt (drawSprite f x0 y0 rows).fb row col = pixelAt f row col := by
  obtain ⟨hpix, -⟩ := foldl_togglePixel _ (nodup_spritePixels x0 y0 hlen) { fb := f, collided := false }
  exact (hpix row col).trans (if_neg fun hm => h (mem_spritePixels.1 hm))

theorem collided_drawSprite (hlen : rows.length ≤ 32) :
    (drawSprite f x0 y0 rows).collided = true ↔ ∃ row col, Covers x0 y0 rows row col ∧ pixelAt f row col = true := by
  obtain ⟨-, hcol⟩ := foldl_togglePixel _ (nodup_spritePixels x0 y0 hlen) { fb := f, collided := false }
  rw [drawSprite, hcol]
  simp [mem_spritePixels]

/-- Settles O48: DXYN draws the sprite of the bytes it reads, at the start its registers give, and writes the collision to VF
(R192 to R196; D4, D11, D12). -/
theorem drawTogglesTheCoveredPixels : Obligations.DrawTogglesTheCoveredPixels := by
  intro x y n s x0 y0 rows hr hx0 hy0 hrows
  have hdrawn : s.drawn x y n = drawSprite s.fb x0 y0 rows := by
    rw [hx0, hy0, hrows, State.drawn, memBytes_eq_map]
    rfl
  have hlen : rows.length ≤ 32 := by
    have := n.isLt
    rw [hrows, List.length_map, List.length_range]
    omega
  have hexec := exec_drw_ok (s := s) (x := x) (y := y) hr
  rw [hdrawn] at hexec
  refine ⟨_, hexec, fun _ _ => pixelAt_drawSprite_of_covers hlen, fun _ _ => pixelAt_drawSprite_of_not_covers hlen,
    fun hc => ?_, fun hc => ?_, fun r hr => getV_exec hexec (by simpa [mayWriteReg] using hr), rfl,
    exec_keeps hexec rfl⟩
  · have hcol := (collided_drawSprite hlen).2 hc
    exact (getV_setV_same ..).trans (congrArg flagByte hcol)
  · have hcol := Bool.eq_false_iff.2 fun h => hc ((collided_drawSprite hlen).1 h)
    exact (getV_setV_same ..).trans (congrArg flagByte hcol)

/-- Settles O49: the first draw leaves everything the second reads but the framebuffer, so both toggle the same pixels, and
the second finds on exactly what the first turned on (R192, R197). -/
theorem drawTwiceRestores : Obligations.DrawTwiceRestores := by
  intro x y n s x0 y0 rows hx hy hr hx0 hy0 hrows
  obtain ⟨t, ht, hon, hoff, -, -, hregs, -, hkeep⟩ := drawTogglesTheCoveredPixels x y n s x0 y0 rows hr hx0 hy0 hrows
  have hbase : t.indexBase = s.indexBase := congrArg BitVec.toNat (hkeep .index (by decide))
  have hbyte : ∀ a, t.byteAt a = s.byteAt a := hkeep .memory (by decide)
  rw [← hbase] at hr
  rw [← hregs x (by simpa using hx)] at hx0
  rw [← hregs y (by simpa using hy)] at hy0
  simp only [← hbyte, ← hbase] at hrows
  obtain ⟨u, hu, hon', hoff', hcol, hnocol, -⟩ := drawTogglesTheCoveredPixels x y n t x0 y0 rows hr hx0 hy0 hrows
  have hlit (row col) (hc : Covers x0 y0 rows row col) :
      pixelAt t.fb row col = true ↔ pixelAt s.fb row col = false := by
    rw [hon row col hc, Bool.not_eq_true']
  refine ⟨t, u, ht, hu, framebuffer_ext fun row col => ?_, fun ⟨row, col, hc, hp⟩ => ?_, fun hno => ?_⟩
  · by_cases hc : Covers x0 y0 rows row col
    · rw [hon' row col hc, hon row col hc, Bool.not_not]
    · rw [hoff' row col hc, hoff row col hc]
  · exact hcol ⟨row, col, hc, (hlit row col hc).2 hp⟩
  · exact hnocol fun ⟨row, col, hc, hp⟩ => hno ⟨row, col, hc, (hlit row col hc).1 hp⟩

/-- A state about to draw the one pixel of the byte 0x80 at I = 0 over the pixel (0, 0), which is on. -/
def coveredPixelOn : State := { State.reset with fb := flipPixel clearedFB 0 0, mem := [(0, 0x80)] }

/-- Refutes O50: in `coveredPixelOn` the first draw turns the one covered pixel off, so the second turns it on without a
collision, and VF is 0 (R192). -/
theorem not_secondDrawAlwaysCollides : ¬Obligations.SecondDrawAlwaysCollides := by
  intro h
  have hvf := h 0 0 1 coveredPixelOn _ _ (by decide) (by decide) (by decide) ⟨0, by decide, by decide⟩ rfl rfl
  exact absurd hvf (by decide)

end Sys2Proof.Machine
end

section
/-! The key skips, the timer transfers and the key wait (spec/45_timers_keys.md R211 to R216). -/

namespace Sys2Proof.Machine

/-- Settles O51: `keySkip_key` for each wanted state of the key (R211, R212; D3). -/
theorem keySkips : Obligations.KeySkips := by
  intro x k s hk
  refine ⟨⟨_, keySkip_key hk, ?_, setPc_keeps s _⟩, ⟨_, keySkip_key hk, ?_, setPc_keeps s _⟩⟩
  all_goals cases s.keys[k] <;> rfl

/-- Settles O52: `keySkip_fault`, which is `State.raise` and does nothing else (R211, R212, R241; D18). -/
theorem invalidKeyFaults : Obligations.InvalidKeyFaults := fun _ s h =>
  ⟨⟨_, keySkip_fault h, tookFault_raise s _ _ _⟩, ⟨_, keySkip_fault h, tookFault_raise s _ _ _⟩⟩

theorem exec_ldVxDT (x : Reg) (s : State) : exec (.ldVxDT x) s = .next (s.setV x s.dt).advance := rfl

theorem exec_ldDTVx (x : Reg) (s : State) : exec (.ldDTVx x) s = .next (s.setDT (s.getV x)).advance := rfl

theorem exec_ldSTVx (x : Reg) (s : State) : exec (.ldSTVx x) s = .next (s.setST (s.getV x)).advance := rfl

/-- Settles O53: one write each, and the words are those of the form FXnn (R213, R215, R216). -/
theorem timerTransfers : Obligations.TimerTransfers := by
  intro x s
  have hword (nn : Byte) : (wordXNN 0xF x nn).toNat = 0xF000 + nn.toNat + 256 * x.val := by
    rw [toNat_wordXNN, Nat.mul_comm 256, Nat.add_right_comm]
    rfl
  exact ⟨⟨_, exec_ldVxDT x s, wroteReg_setV_advance s x s.dt⟩,
    ⟨_, exec_ldDTVx x s, rfl, rfl, exec_keeps (exec_ldDTVx x s) rfl⟩,
    ⟨_, exec_ldSTVx x s, rfl, rfl, exec_keeps (exec_ldSTVx x s) rfl⟩, hword 0x07, hword 0x15, hword 0x18⟩

/-- Settles O54: the three outcomes of FX0A (R214; D20). -/
theorem keyWaitProtocol : Obligations.KeyWaitProtocol := by
  intro x s
  refine ⟨fun haw => ⟨_, exec_ldVxK_start haw, rfl, rfl, fun p hp => ?_⟩, fun haw hkr => ?_, exec_ldVxK_wait⟩
  · cases p <;> simp_all [Part.Same]
  · have hexec := exec_ldVxK_complete (x := x) haw hkr
    refine ⟨_, hexec, ?_, fun r hr => getV_exec hexec (by simpa [mayWriteReg] using hr), rfl, rfl, rfl,
      exec_keeps hexec rfl⟩
    simp [toNat_keyByte]

end Sys2Proof.Machine
end
